-- ==== Sys2Proof/Word.lean ====
section
/-! DEFINITION. The words of the block: bytes, 7-bit received symbols, 16-bit register values, and the two formats a
word takes when it enters the block (spec 30_encoding.md rules R57 and R61). -/

namespace Sys2Proof

/-- One cell of `BUF` or `SYM`, one outbound symbol (R13, R27, R28, R57). -/
abbrev Byte := BitVec 8

/-- One symbol as `READB` returns it: 7 bits (R57, R79). -/
abbrev Sym7 := BitVec 7

/-- The width of `CRC` and of `RES.val` (R15, R16). -/
abbrev Half := BitVec 16

/-- A word that enters the block: a command word at the command port (`CW32`, R61) or a symbol at its end of the
wire (`SYM8`, R57). -/
inductive CodeWord where
  | cw32 (w : BitVec 32)
  | sym8 (v : Byte)
  deriving DecidableEq, Repr

end Sys2Proof
end

