-- ==== Sys2Proof/Config.lean ====
section
/-! DEFINITION. What is fixed for one machine (spec 00_scope.md rule R5): the constants the spec gives, the record of
the parameters it leaves open or gives alternatives of, and the free values it leaves to a draw (R8, R38). -/

namespace Sys2Proof

/-- A number of character periods, `num / den` (R5 types `RTO_CHARS` real; a fraction is the plain data for it, log
14). -/
structure CharPeriods where
  num : Nat
  den : Nat
  deriving DecidableEq, Repr, Inhabited

/-- `x` is about `n` whole periods: at most half a period away from it (R5 "about", log 14). -/
abbrev CharPeriods.About (x : CharPeriods) (n : Nat) : Prop :=
  0 < x.den ∧ (2 * n - 1) * x.den ≤ 2 * x.num ∧ 2 * x.num ≤ (2 * n + 1) * x.den

namespace Config

/-- `BAUD` (R5, R24). -/
def baud : Nat := 230400

/-- `CRC_POLY`: x^16 + x^15 + x^2 + 1 (R5, R110). -/
def crcPoly : Half := 0x8005

/-- `BUF_BYTES` (R5, R27). -/
def bufBytes : Nat := 512

/-- `SYM_CAP` (R5, R28): 8 symbols for each byte of `BUF`. -/
def symCap : Nat := 4096

/-- `MAX_PAYLOAD` (R5): informative, used by the software above only. -/
def maxPayload : Nat := 155

/-! ### Free values

None of these has a value a proof can see: a claim that mentions one holds whatever it is. -/

/-- A bit the environment draws: the content of `RDR` after an overrun (R34, log 7), `rto` after a failing `READB`
(R20, log 8), the receive flags after a `SENDB` (R76, log 29). The argument is the draw counter of the state. -/
opaque freeBit : Nat → Bool

/-- A symbol the environment draws: an echo under TxHealthy (R33, log 9), `RDR` after a `SENDB` (R76, log 29), a symbol
of an environment that never falls silent (R108, log 3). -/
opaque freeByte : Nat → Byte

/-- The outcome of a `READB` with `rx_clean = 0`: a value in 0 .. 127 or, as `none`, the sentinel (R78, log 5). -/
opaque freeRead : Nat → Option Sym7

/-- What the `READB` of a `COLLECT` return, up to the failing one, when its `FLUSH` timed out (R78, R105, log 6). -/
opaque freeBurst : Nat → List Sym7

/-- What a cell of `BUF` that nothing has written reads as: it depends on the power-on and the address (R38, R46,
log 10). -/
opaque bufAtPowerOn : Nat → Nat → Byte

/-- What a cell of `SYM` that nothing has written reads as (R38, log 10). -/
opaque symAtPowerOn : Nat → Nat → Byte

/-- `TDR` after a power-on (R37: unspecified, log 11). -/
opaque tdrAtPowerOn : Nat → Byte

/-- `TSR` after a power-on (R37: unspecified, log 11). -/
opaque tsrAtPowerOn : Nat → Byte

/-- `RDR` after a power-on (R37: unspecified, log 11). -/
opaque rdrAtPowerOn : Nat → Byte

/-- `CRC` after a power-on (R37: unspecified, log 11). -/
opaque crcAtPowerOn : Nat → Half

/-- `CFG.BAUD` after a power-on (R37: unspecified, log 11). -/
opaque baudAtPowerOn : Nat → Nat

/-- `CFG.RTO` after a power-on (R37: unspecified, log 11). -/
opaque rtoAtPowerOn : Nat → CharPeriods

/-- The tick counter after a power-on (R138: not in the source, log 11). -/
opaque ticksAtPowerOn : Nat → Nat

end Config

/-- `CRC_DATA_BIT_ORDER` (R5, R112). -/
inductive CrcBitOrder where
  | msbFirst
  | lsbFirst
  deriving DecidableEq, Repr

/-- `OVERREAD_COUNT` (R5, R106). -/
inductive OverreadCount where
  | stored
  | total
  deriving DecidableEq, Repr

/-- The parameters of R5 that are open or have alternatives. The record stands in the state, so that a claim over
all states holds for every value of every parameter (log 12). -/
structure Params where
  /-- `SYM_BIT0` -/
  symBit0 : Byte
  /-- `SYM_BIT1` -/
  symBit1 : Byte
  /-- `FLAG_CMD` -/
  flagCmd : Byte
  /-- `FLAG_TX` -/
  flagTx : Byte
  /-- `FLAG_IDLE` -/
  flagIdle : Byte
  /-- `FLAG_SLEEP` -/
  flagSleep : Byte
  /-- `FLAG_ENCODED` -/
  flagEncoded : Bool
  /-- `near_bit1` as a table: bit v is its value at the 7-bit symbol v -/
  nearTable : BitVec 128
  /-- `CRC_DATA_BIT_ORDER` -/
  crcBitOrder : CrcBitOrder
  /-- `OVERREAD_COUNT` -/
  overreadCount : OverreadCount
  /-- `TX_WAIT_TICKS` -/
  txWaitTicks : Nat
  /-- `RX_WAIT_TICKS` -/
  rxWaitTicks : Nat
  /-- `TC_WAIT_TICKS` -/
  tcWaitTicks : Nat
  /-- `TICK_HZ`: timing only -/
  tickHz : Nat
  /-- `CHAR_BITS`: timing only -/
  charBits : Nat
  /-- `RTO_CHARS` (log 14): timing only -/
  rtoChars : CharPeriods
  deriving DecidableEq, Repr

/-- `near_bit1` (R59): whether a received symbol is read as data bit 1. -/
def Params.near (p : Params) (v : Sym7) : Bool := p.nearTable.getLsbD v.toNat

/-- The laws R5 puts on the parameters; what "about 3" allows is the model's reading (log 14). -/
abbrev Params.Lawful (p : Params) : Prop :=
  p.symBit0 ≠ p.symBit1 ∧
  [p.flagCmd, p.flagTx, p.flagIdle, p.flagSleep].Nodup ∧
  p.near (p.symBit1.setWidth 7) = true ∧
  p.near (p.symBit0.setWidth 7) = false ∧
  0 < p.txWaitTicks ∧ 0 < p.rxWaitTicks ∧ 0 < p.tcWaitTicks ∧
  (p.charBits = 9 ∨ p.charBits = 10) ∧
  p.rtoChars.About 3

/-- The defaults R5 recommends for tests (from general knowledge, GK1, GK2, GK4; the tick numbers and `CHAR_BITS` are
the model's own, log 13). The table accepts exactly 0x7E and 0x7F. -/
def Params.default : Params where
  symBit0 := 0x7D
  symBit1 := 0x7F
  flagCmd := 0x77
  flagTx := 0x88
  flagIdle := 0xBB
  flagSleep := 0xCC
  flagEncoded := true
  nearTable := 0xC0000000000000000000000000000000
  crcBitOrder := .msbFirst
  overreadCount := .stored
  txWaitTicks := 100
  rxWaitTicks := 100
  tcWaitTicks := 100
  tickHz := 1000000
  charBits := 10
  rtoChars := ⟨3, 1⟩

end Sys2Proof
end

