-- ==== Sys2Proof/Syntax.lean ====
section
/-! DEFINITION. The instructions: one constructor for each row of spec/opcode_table.json. The first sixteen are the
host operations of 30_encoding.md rule R62; the last six are the symbols of the wire encoding (rules R57, R58, R60). -/

namespace Sys2Proof

/-- An operand `a` is a `BUF` address, `n` a byte count, `cap` a capacity in bytes: naturals (R63). -/
inductive Instr where
  /-- 0x01 `SENDB imm8` (R75) -/
  | sendb (imm : Byte)
  /-- 0x02 `READB` (R79) -/
  | readb
  /-- 0x03 `FLUSH` (R83) -/
  | flush
  /-- 0x10 `ENC a, n` (R96) -/
  | enc (a n : Nat)
  /-- 0x11 `DEC a, cap` (R97) -/
  | dec (a cap : Nat)
  /-- 0x12 `SENDBYTES a, n` (R98) -/
  | sendBytes (a n : Nat)
  /-- 0x13 `FLAG.CMD` (R100) -/
  | flagCmd
  /-- 0x14 `FLAG.TX` (R101) -/
  | flagTx
  /-- 0x15 `FLAG.IDLE` (R102) -/
  | flagIdle
  /-- 0x16 `FLAG.SLEEP` (R103) -/
  | flagSleep
  /-- 0x17 `COLLECT a, cap` (R104) -/
  | collect (a cap : Nat)
  /-- 0x20 `CRC.SEED a` (R116) -/
  | crcSeed (a : Nat)
  /-- 0x21 `CRC.UPD a, n` (R117) -/
  | crcUpd (a n : Nat)
  /-- 0x22 `CRC.GET a` (R118) -/
  | crcGet (a : Nat)
  /-- 0x30 `STB a, imm8` (R122) -/
  | stb (a : Nat) (imm : Byte)
  /-- 0x31 `LDB a` (R123) -/
  | ldb (a : Nat)
  /-- the symbol `SYM_BIT0` on the wire (R58) -/
  | symBit0
  /-- the symbol `SYM_BIT1` on the wire (R58) -/
  | symBit1
  /-- the byte `FLAG_CMD` as one symbol on the wire (R60) -/
  | flagByteCmd
  /-- the byte `FLAG_TX` as one symbol on the wire (R60) -/
  | flagByteTx
  /-- the byte `FLAG_IDLE` as one symbol on the wire (R60) -/
  | flagByteIdle
  /-- the byte `FLAG_SLEEP` as one symbol on the wire (R60) -/
  | flagByteSleep
  deriving DecidableEq, Repr

end Sys2Proof
end

