-- ==== Sys2Proof/WellFormed.lean ====
section
/-! DEFINITION. Which terms of `Instr` a word can spell: the address and the count fields have 12 bits each (spec
30_encoding.md rules R61 and R63). Whether an operand stays inside `BUF` is no matter of form: such a word spells an
operation that is refused when it is offered (R64 (c), R131). -/

namespace Sys2Proof

/-- A value of field `a` or of field `b`: 0 .. 4095 (R63). -/
abbrev fitsField (x : Nat) : Prop := x < 4096

/-- Every operand fits the field that carries it. -/
abbrev Instr.WellFormed : Instr → Prop
  | .sendb _ => True
  | .readb => True
  | .flush => True
  | .enc a n => fitsField a ∧ fitsField n
  | .dec a cap => fitsField a ∧ fitsField cap
  | .sendBytes a n => fitsField a ∧ fitsField n
  | .flagCmd => True
  | .flagTx => True
  | .flagIdle => True
  | .flagSleep => True
  | .collect a cap => fitsField a ∧ fitsField cap
  | .crcSeed a => fitsField a
  | .crcUpd a n => fitsField a ∧ fitsField n
  | .crcGet a => fitsField a
  | .stb a _ => fitsField a
  | .ldb a => fitsField a
  | .symBit0 => True
  | .symBit1 => True
  | .flagByteCmd => True
  | .flagByteTx => True
  | .flagByteIdle => True
  | .flagByteSleep => True

end Sys2Proof
end

