-- ==== Sys2Proof/Decode.lean ====
section
/-! DEFINITION. The decoder and the encoder of the two formats (spec 30_encoding.md rules R57 to R64). Every word
either spells exactly one instruction or is rejected by name. -/

namespace Sys2Proof

/-- Why a word spells no instruction. -/
inductive DecodeError where
  /-- `op` is not one of the sixteen values of R62 (R64 (a)) -/
  | reservedOp
  /-- a field the operation does not use is not zero (R64 (b)) -/
  | unusedFieldNotZero
  /-- an 8-bit symbol that none of the six names of R58 and R60 stands for -/
  | unnamedSymbol
  deriving DecidableEq, Repr

/-! ### `CW32` -/

/-- Bits 31:24 (R61). -/
def cwOp (w : BitVec 32) : Nat := (w.extractLsb' 24 8).toNat

/-- Bits 23:12 (R61, R63). -/
def cwA (w : BitVec 32) : Nat := (w.extractLsb' 12 12).toNat

/-- Bits 11:0 (R61, R63). -/
def cwB (w : BitVec 32) : Nat := (w.extractLsb' 0 12).toNat

/-- Bits 7:0 (R63). -/
def cwImm (w : BitVec 32) : Byte := w.extractLsb' 0 8

/-- The instruction, if the fields that it does not use are zero (R62, R64 (b)). -/
def whenUnusedZero (ok : Bool) (i : Instr) : Except DecodeError Instr :=
  if ok then .ok i else .error .unusedFieldNotZero

/-- The host decoder (R62, R63, R64). -/
def decodeCw (w : BitVec 32) : Except DecodeError Instr :=
  match cwOp w with
  | 0x01 => whenUnusedZero (cwA w == 0 && cwB w / 256 == 0) (.sendb (cwImm w))
  | 0x02 => whenUnusedZero (cwA w == 0 && cwB w == 0) .readb
  | 0x03 => whenUnusedZero (cwA w == 0 && cwB w == 0) .flush
  | 0x10 => .ok (.enc (cwA w) (cwB w))
  | 0x11 => .ok (.dec (cwA w) (cwB w))
  | 0x12 => .ok (.sendBytes (cwA w) (cwB w))
  | 0x13 => whenUnusedZero (cwA w == 0 && cwB w == 0) .flagCmd
  | 0x14 => whenUnusedZero (cwA w == 0 && cwB w == 0) .flagTx
  | 0x15 => whenUnusedZero (cwA w == 0 && cwB w == 0) .flagIdle
  | 0x16 => whenUnusedZero (cwA w == 0 && cwB w == 0) .flagSleep
  | 0x17 => .ok (.collect (cwA w) (cwB w))
  | 0x20 => whenUnusedZero (cwB w == 0) (.crcSeed (cwA w))
  | 0x21 => .ok (.crcUpd (cwA w) (cwB w))
  | 0x22 => whenUnusedZero (cwB w == 0) (.crcGet (cwA w))
  | 0x30 => whenUnusedZero (cwB w / 256 == 0) (.stb (cwA w) (cwImm w))
  | 0x31 => whenUnusedZero (cwB w == 0) (.ldb (cwA w))
  | _ => .error .reservedOp

/-! ### `SYM8` -/

/-- The name of a symbol on the wire, under the machine's own parameter values (R58, R60). Where two parameters have
one value the first name is taken; all six names have one meaning, the arrival of that value (log 15). -/
def decodeSym (p : Params) (v : Byte) : Except DecodeError Instr :=
  if v = p.symBit0 then .ok .symBit0
  else if v = p.symBit1 then .ok .symBit1
  else if v = p.flagCmd then .ok .flagByteCmd
  else if v = p.flagTx then .ok .flagByteTx
  else if v = p.flagIdle then .ok .flagByteIdle
  else if v = p.flagSleep then .ok .flagByteSleep
  else .error .unnamedSymbol

/-- The decoder of both formats under the parameters `p`. -/
def decodeWith (p : Params) : CodeWord → Except DecodeError Instr
  | .cw32 w => decodeCw w
  | .sym8 v => decodeSym p v

/-- The decoder of spec/opcode_table.json, whose symbol rows carry the default values of R5. -/
def decode (c : CodeWord) : Except DecodeError Instr := decodeWith Params.default c

/-! ### The encoder -/

/-- The command word with the fields `op`, `a`, `b` (R61). -/
def mkCw (op : BitVec 8) (a b : Nat) : BitVec 32 := op ++ BitVec.ofNat 12 a ++ BitVec.ofNat 12 b

/-- The word of a well-formed instruction under the parameters `p` (R62; R58 and R60 for the symbols). -/
def encodeWith (p : Params) : Instr → CodeWord
  | .sendb v => .cw32 (mkCw 0x01 0 v.toNat)
  | .readb => .cw32 (mkCw 0x02 0 0)
  | .flush => .cw32 (mkCw 0x03 0 0)
  | .enc a n => .cw32 (mkCw 0x10 a n)
  | .dec a cap => .cw32 (mkCw 0x11 a cap)
  | .sendBytes a n => .cw32 (mkCw 0x12 a n)
  | .flagCmd => .cw32 (mkCw 0x13 0 0)
  | .flagTx => .cw32 (mkCw 0x14 0 0)
  | .flagIdle => .cw32 (mkCw 0x15 0 0)
  | .flagSleep => .cw32 (mkCw 0x16 0 0)
  | .collect a cap => .cw32 (mkCw 0x17 a cap)
  | .crcSeed a => .cw32 (mkCw 0x20 a 0)
  | .crcUpd a n => .cw32 (mkCw 0x21 a n)
  | .crcGet a => .cw32 (mkCw 0x22 a 0)
  | .stb a v => .cw32 (mkCw 0x30 a v.toNat)
  | .ldb a => .cw32 (mkCw 0x31 a 0)
  | .symBit0 => .sym8 p.symBit0
  | .symBit1 => .sym8 p.symBit1
  | .flagByteCmd => .sym8 p.flagCmd
  | .flagByteTx => .sym8 p.flagTx
  | .flagByteIdle => .sym8 p.flagIdle
  | .flagByteSleep => .sym8 p.flagSleep

/-- The word spec/opcode_table.json gives a well-formed instruction. -/
def encode (i : Instr) : CodeWord := encodeWith Params.default i

/-- A word of `nbits` bits as the block takes it in: a row of 8 bits or fewer is a symbol, any other a command word,
whose bits above `nbits` are zero. -/
def codeWordOfBits (nbits w : Nat) : CodeWord :=
  if nbits ≤ 8 then .sym8 (BitVec.ofNat 8 (w % 2 ^ nbits)) else .cw32 (BitVec.ofNat 32 (w % 2 ^ nbits))

/-- The instruction the decoder reads from an opcode-table word. -/
def decodeTableWord (nbits w : Nat) : Option Instr := (decode (codeWordOfBits nbits w)).toOption

end Sys2Proof
end

