-- ==== Sys2Proof/Machine/State.lean ====
section
/-! DEFINITION. The state of the machine as plain data (spec 10_state.md), what host and environment can do to it, the
reasons a step can stop, and the state after a power-on (rule R37). -/

namespace Sys2Proof.Machine

/-! ### What enters the machine -/

/-- A step of the environment (R32 to R36) or of the tick source (R9, R138). -/
inductive EnvEvent where
  /-- E-SHIFT (R32): the shifter takes the symbol of `TDR` -/
  | shift
  /-- E-DONE (R33): the symbol has left; `echo` is what the block's own receiver sees of it -/
  | done (echo : Byte)
  /-- E-RX (R34): a symbol arrives -/
  | rx (s : Byte)
  /-- E-RTO (R35): the line has been idle for the inter-byte timeout -/
  | rto
  /-- E-ERR (R36): a receive error other than overrun -/
  | err
  /-- one count of the tick source (R9) -/
  | tick
  deriving DecidableEq, Repr

/-- One item of the agenda of host and environment (R10, log 1). -/
inductive Input where
  /-- the host offers a command word (R22), or a symbol named in the opcode table arrives on the wire (R57, log 15) -/
  | word (w : CodeWord)
  /-- a step of the environment; where it lands in a wait, a healthy transmitter has gone before it (R9, log 2) -/
  | env (e : EnvEvent)
  /-- a step of the environment that goes before the next step of a healthy transmitter, so that it lands in the wait
  of a `SENDB` or a `FLUSH` too (R9, log 2); between operations the same as `env` -/
  | amid (e : EnvEvent)
  /-- the host runs bus initialisation (R146) -/
  | busInit
  /-- the host writes a byte of its buffer directly (R27, D23) -/
  | hostStore (a : Nat) (v : Byte)
  /-- power-on, the only reset (R143); it lands between operations only (the model's choice, log 22) -/
  | powerOn
  deriving DecidableEq, Repr

/-- An event of the wire history `W` (R31). -/
inductive WireEvent where
  /-- the block put symbol `s` on the wire -/
  | tx (s : Byte)
  /-- `READB` returned `v` -/
  | rxTaken (v : Sym7)
  /-- `READB` returned the sentinel -/
  | rxFail
  /-- a `FLUSH` completed -/
  | flushed
  deriving DecidableEq, Repr

/-! ### The state -/

/-- `RES` (R16). -/
structure Res where
  fail : Bool
  val : Half
  deriving DecidableEq, Repr

/-- The sentinel (R16, D9). -/
def Res.sentinel : Res := ⟨true, 0xFFFF⟩

/-- BitChannel with its configuration registers (R13, R14, R17 to R21, R23 to R25, R30), the wire history (R31) and
the agents outside the block. -/
structure Link where
  /-- `CFG.EN` (R23) -/
  cfgEn : Bool
  /-- `CFG.BAUD` (R24) -/
  cfgBaud : Nat
  /-- `CFG.RTO` (R25), in character periods (log 14) -/
  cfgRto : CharPeriods
  /-- `TDR` (R13) -/
  tdr : Byte
  /-- `txe`: `TDR` is empty (R17) -/
  txe : Bool
  /-- `TSR` (R30) -/
  tsr : Byte
  /-- `tsr_busy` (R30) -/
  tsrBusy : Bool
  /-- `tc`: nothing in flight (R18) -/
  tc : Bool
  /-- `RDR` (R14) -/
  rdr : Byte
  /-- `rxne`: `RDR` holds a symbol not yet taken (R19) -/
  rxne : Bool
  /-- `rto`: inter-byte timeout seen (R20) -/
  rto : Bool
  /-- `err`: a receive error is pending (R21) -/
  err : Bool
  /-- `rx_clean`, ghost (R30) -/
  rxClean : Bool
  /-- `W`, oldest first (R31) -/
  wire : List WireEvent
  /-- the tick counter (R9, R138; log 24) -/
  ticks : Nat
  /-- MODEL: what host and environment do next, oldest first (log 1) -/
  inputs : List Input
  /-- MODEL: the premise TxHealthy (R32, log 2) -/
  txHealthy : Bool
  /-- MODEL: the premise EnvEventuallySilent (R108, log 3) -/
  envSilent : Bool
  /-- MODEL: how many free values have been drawn (log 9) -/
  draws : Nat
  deriving DecidableEq, Repr

/-- The whole machine. -/
structure State where
  /-- the parameters of this machine (R5, log 12) -/
  cfg : Params
  /-- BitChannel, the wire and the agenda -/
  link : Link
  /-- `CRC` (R15) -/
  crc : Half
  /-- `crc_valid`, ghost (R15) -/
  crcValid : Bool
  /-- `RES` (R16) -/
  res : Res
  /-- `SYMLEN` (R26) -/
  symLen : Nat
  /-- `SYM` (R28): written cells, indexes strictly rising -/
  sym : List Host.Cell
  /-- `BUF` (R27): written cells, addresses strictly rising -/
  buf : List Host.Cell
  /-- `busy` (R22) -/
  busy : Bool
  /-- MODEL: which power-on this is (log 22) -/
  boot : Nat
  deriving DecidableEq, Repr

/-! ### Outcomes -/

/-- The block itself has no fault (R126). The one constructor names a run without an end. -/
inductive Fault where
  /-- `COLLECT` against an environment that never falls silent reads on for ever (R108, R135). Raised by `COLLECT`
  only, and only where `envSilent` is false, whatever the host's next input is, a power-on too (log 22). Safe: the
  hardware does not come back of itself either (log 3). -/
  | collectNeverEnds
  deriving DecidableEq, Repr

/-- Why an operation is not accepted (R131). A refusal changes nothing; all but the last are the spec's own. -/
inductive Refusal where
  /-- offered while `busy = 1` (R22); by any host operation, bus initialisation and direct store; safe -/
  | busy
  /-- reserved operation number (R64 (a)); by the fetch of a command word; safe -/
  | reservedOp
  /-- an unused field is not zero (R64 (b)); by the fetch of a command word; safe -/
  | unusedFieldNotZero
  /-- an operand names a cell outside `BUF` or `SYM` (R47, R90); by every operation with an address; safe -/
  | operandOutOfRange
  /-- a wire operation while `CFG.EN = 0` (R72, R90); safe -/
  | channelNotReady
  /-- `CRC.UPD` or `CRC.GET` before any `CRC.SEED` (R117, R118); safe -/
  | crcNotSeeded
  /-- an instruction the model gives no meaning yet; by no arm of this model; safe -/
  | notModelled (mnemonic : String)
  deriving DecidableEq, Repr

/-- The three outcomes of a step. -/
abbrev Result := Host.Outcome State Fault Refusal

/-! ### Power-on -/

/-- The channel after power-on number `boot` (R37): nothing in flight, not ready, the receive path idle, `W` empty.
Registers the table marks unspecified hold free constants (log 11). -/
def Link.atPowerOn (boot : Nat) : Link where
  cfgEn := false
  cfgBaud := Config.baudAtPowerOn boot
  cfgRto := Config.rtoAtPowerOn boot
  tdr := Config.tdrAtPowerOn boot
  txe := true
  tsr := Config.tsrAtPowerOn boot
  tsrBusy := false
  tc := true
  rdr := Config.rdrAtPowerOn boot
  rxne := false
  rto := false
  err := false
  rxClean := false
  wire := []
  ticks := Config.ticksAtPowerOn boot
  inputs := []
  txHealthy := true
  envSilent := true
  draws := 0

/-- The machine with parameters `p` after power-on number `boot` (R37). -/
def State.atPowerOn (p : Params) (boot : Nat) : State where
  cfg := p
  link := Link.atPowerOn boot
  crc := Config.crcAtPowerOn boot
  crcValid := false
  res := Res.sentinel
  symLen := 0
  sym := []
  buf := []
  busy := false
  boot := boot

/-- The machine right after reset (R37, R143), with the default parameters of R5 (log 12). -/
def State.reset : State := State.atPowerOn Params.default 0

end Sys2Proof.Machine
end

