-- ==== Sys2Proof/Machine/Flags.lean ====
section
/-! DEFINITION. Every computation of the five status flags and of `tsr_busy`: the steps of the environment (spec
10_state.md rules R32 to R36) and the conditions the waits test (40_bitchannel.md rule R73). -/

namespace Sys2Proof.Machine

/-- E-SHIFT (R32): enabled when a symbol waits in `TDR` and the shifter is free; otherwise nothing happens. -/
def Link.shift (l : Link) : Link :=
  if !l.txe && !l.tsrBusy then
    { l with tsr := l.tdr, tsrBusy := true, txe := true, wire := l.wire ++ [.tx l.tdr] }
  else l

/-- The receiver latches a symbol (R34). While `RDR` is occupied this is an overrun: `err` is set and `RDR` holds its
old value or the new symbol, which of the two is free (log 7). -/
def Link.latch (s : Byte) (l : Link) : Link :=
  { l with
    rdr := if l.rxne && !Config.freeBit l.draws then l.rdr else s
    rxne := true
    err := l.err || l.rxne
    draws := if l.rxne then l.draws + 1 else l.draws }

/-- E-DONE (R33): the symbol in `TSR` has left; its echo reaches the receiver. Nothing happens if none was there. -/
def Link.done (echo : Byte) (l : Link) : Link :=
  if l.tsrBusy then Link.latch echo { l with tsrBusy := false, tc := l.tc || l.txe } else l

/-- E-RX (R34): enabled while the channel is ready (log 16). -/
def Link.rx (s : Byte) (l : Link) : Link := if l.cfgEn then l.latch s else l

/-- E-RTO (R35): enabled while the channel is ready. -/
def Link.raiseRto (l : Link) : Link := if l.cfgEn then { l with rto := true } else l

/-- E-ERR (R36): enabled while the channel is ready. -/
def Link.raiseErr (l : Link) : Link := if l.cfgEn then { l with err := true } else l

/-- One tick of the tick source (R9). -/
def Link.tick (l : Link) : Link := { l with ticks := l.ticks + 1 }

/-- The effect of one environment event. -/
def Link.apply (e : EnvEvent) (l : Link) : Link :=
  match e with
  | .shift => l.shift
  | .done echo => l.done echo
  | .rx s => l.rx s
  | .rto => l.raiseRto
  | .err => l.raiseErr
  | .tick => l.tick

/-- What `SENDB` waits for (R17, R73). -/
def Link.canSend (l : Link) : Bool := l.txe

/-- What `FLUSH` waits for (R18, R73). -/
def Link.allSent (l : Link) : Bool := l.tc

/-- What `READB` waits for (R73). -/
def Link.canRead (l : Link) : Bool := l.rxne || l.rto

/-- A symbol is in `TDR` or in `TSR`: the transmitter has a step to take (R32, R33). -/
def Link.sending (l : Link) : Bool := l.tsrBusy || !l.txe

/-- The next step of a healthy transmitter (R32): E-DONE, with an echo under no law (log 9), before E-SHIFT. -/
def Link.txStep (l : Link) : Link :=
  if l.tsrBusy then Link.done (Config.freeByte l.draws) { l with draws := l.draws + 1 } else l.shift

end Sys2Proof.Machine
end

