-- ==== Sys2Proof/Machine/Ops.lean ====
section
/-! DEFINITION. The shared operations: memory cells (spec 20_memory.md rules R45, R47; 10_state.md rule R38), the
bounded wait (00_scope.md rule R9), the three BitChannel primitives (40_bitchannel.md), and the transmit primitive of
the Framer (41_framer.md rule R86). Exceptions: the block takes none and returns from none (60_exceptions.md rules
R126, R129, R130), so there is no such operation here. -/

namespace Sys2Proof.Machine

/-! ### Memory -/

/-- Every key of `m` is below `bound`, and the keys rise strictly from `lo`. -/
def cellsRise : Nat → Nat → List Host.Cell → Bool
  | _, _, [] => true
  | lo, bound, (k, _) :: t => lo ≤ k && k < bound && cellsRise (k + 1) bound t

/-- The canonical form of a memory of `bound` cells: addresses strictly rising and inside the memory. An unlisted cell
holds no value (R38), so there is no entry that equals what it reads as. -/
def memWf (bound : Nat) (m : List Host.Cell) : Bool := cellsRise 0 bound m

/-- What has been written to cell `a`. -/
def memLookup : List Host.Cell → Nat → Option Byte
  | [], _ => none
  | (k, v) :: t, a => if k = a then some v else memLookup t a

/-- The bytes `l` at `a, a+1, ...`. -/
def cellsFrom (a : Nat) : List Byte → List Host.Cell
  | [] => []
  | v :: t => (a, v) :: cellsFrom (a + 1) t

/-- `MemWrite(a, n, l)` with n the length of l (R8). -/
def memWrite (m : List Host.Cell) (a : Nat) (l : List Byte) : List Host.Cell :=
  m.filter (fun c => c.1 < a) ++ cellsFrom a l ++ m.filter (fun c => a + l.length ≤ c.1)

/-- `BUF[a]`; a cell that nothing has written yields a free value (R38, log 10). -/
def State.bufByte (s : State) (a : Nat) : Byte := (memLookup s.buf a).getD (Config.bufAtPowerOn s.boot a)

/-- `SYM[i]`; as `BUF[a]`. -/
def State.symCell (s : State) (i : Nat) : Byte := (memLookup s.sym i).getD (Config.symAtPowerOn s.boot i)

/-- `MemRead(a, n)` (R8). -/
def State.bufRead (s : State) (a n : Nat) : List Byte := (List.range n).map fun i => s.bufByte (a + i)

/-- `SYM[0 .. SYMLEN)`. -/
def State.symRead (s : State) : List Byte := (List.range s.symLen).map s.symCell

/-- `MemWrite(a, n, l)` to `BUF`. -/
def State.bufWrite (a : Nat) (l : List Byte) (s : State) : State := { s with buf := memWrite s.buf a l }

/-- `SYM[0 ..] <- l; SYMLEN <- len(l)`: cells above stay, no longer valid (R96, R104). -/
def State.symLoad (l : List Byte) (s : State) : State :=
  { s with sym := memWrite s.sym 0 l, symLen := l.length }

/-- `RES.fail <- 0 ; RES.val <- v`, v reduced to 16 bits. -/
def State.setRes (v : Nat) (s : State) : State := { s with res := ⟨false, BitVec.ofNat 16 v⟩ }

/-- An operation of the channel alone. -/
def State.onLink (f : Link → Link) (s : State) : State := { s with link := f s.link }

/-! ### The bounded wait -/

/-- How a wait ends. -/
inductive WaitEnd where
  /-- its condition holds -/
  | held
  /-- its budget of ticks has passed among the events of the agenda -/
  | expired
  /-- no environment event is left before the host's next input: the rest of the budget passes with nothing
  happening (log 4) -/
  | ranDry
  deriving DecidableEq, Repr

/-- The environment event an input is, if it is one: a symbol named in the opcode table is an arrival (log 15). A
power-on is none: that it does not land inside an operation is the model's choice (log 22). -/
def envEventOf : Input → Option EnvEvent
  | .env e => some e
  | .amid e => some e
  | .word (.sym8 v) => some (.rx v)
  | .word (.cw32 _) => none
  | .busInit => none
  | .hostStore _ _ => none
  | .powerOn => none

/-- The event an input is, if it goes before the next step of a healthy transmitter (log 2). -/
def amidEventOf : Input → Option EnvEvent
  | .amid e => some e
  | .env _ => none
  | .word _ => none
  | .busInit => none
  | .hostStore _ _ => none
  | .powerOn => none

/-- `left` after the event `e`: a tick takes one from the budget. -/
def budgetAfter (left : Nat) (e : EnvEvent) : Nat := if e = .tick then left - 1 else left

/-- The wait ends with `inputs` still on the agenda and `left` ticks of its budget unused. -/
def Link.stopWait (cond : Link → Bool) (left : Nat) (inputs : List Input) (l : Link) : WaitEnd × Link :=
  if cond l then (.held, { l with inputs := inputs })
  else if left = 0 then (.expired, { l with inputs := inputs })
  else (.ranDry, { l with inputs := inputs, ticks := l.ticks + left })

/-- The wait on the events of the agenda (R9): each is taken in turn until the condition holds or the budget is used
up; the host's next input is not taken. -/
def Link.waitEvents (cond : Link → Bool) : Nat → List Input → Link → WaitEnd × Link
  | left, [], l => l.stopWait cond left []
  | left, i :: rest, l =>
    match envEventOf i with
    | none => l.stopWait cond left (i :: rest)
    | some e =>
      if cond l || left == 0 then l.stopWait cond left (i :: rest)
      else Link.waitEvents cond (budgetAfter left e) rest (l.apply e)

/-- The events at the head of the agenda that go before the next step of a healthy transmitter, taken until the
condition holds or the budget is used up; with the ticks and the agenda that are left (R9, log 2). They may be the
transmitter's own steps, so that every order of arrivals and transmitter steps can be had. -/
def Link.overtake (cond : Link → Bool) : Nat → List Input → Link → Nat × List Input × Link
  | left, [], l => (left, [], l)
  | left, i :: rest, l =>
    match amidEventOf i with
    | none => (left, i :: rest, l)
    | some e =>
      if cond l || left == 0 then (left, i :: rest, l)
      else Link.overtake cond (budgetAfter left e) rest (l.apply e)

/-- Under TxHealthy the transmitter moves while an operation waits (R32): at most `k` steps, until the condition
holds or nothing is left to send. -/
def Link.drain (cond : Link → Bool) : Nat → Link → Link
  | 0, l => l
  | k + 1, l => if cond l || !l.sending then l else Link.drain cond k l.txStep

/-- `wait_until(cond, budget)` (R9). A healthy transmitter takes its steps behind the events that overtake it and
before the others; two symbols in flight take three of them. -/
def Link.waitUntil (cond : Link → Bool) (budget : Nat) (l : Link) : WaitEnd × Link :=
  if l.txHealthy then
    let w := l.overtake cond budget l.inputs
    Link.waitEvents cond w.1 w.2.1 (w.2.2.drain cond 3)
  else Link.waitEvents cond budget l.inputs l

/-! ### BitChannel -/

/-- The receive path is unspecified: `RDR`, `rxne`, `rto` and `err` are free (R76, log 29). -/
def Link.blurReceive (l : Link) : Link :=
  { l with
    rdr := Config.freeByte l.draws, rxne := Config.freeBit l.draws, rto := Config.freeBit (l.draws + 1),
    err := Config.freeBit (l.draws + 2), draws := l.draws + 3 }

/-- `SENDB` (R75, R76): on a wait that ran out nothing is sent and nothing is reported. -/
def Link.sendb (p : Params) (v : Byte) (l : Link) : Link :=
  match l.waitUntil Link.canSend p.txWaitTicks with
  | (.held, k) => { k.blurReceive with tdr := v, txe := false, tc := false, rxClean := false }
  | (_, k) => k

/-- `FLUSH` (R83): the wait's end is not reported; `rx_clean` records it. -/
def Link.flush (p : Params) (l : Link) : Link :=
  let w := l.waitUntil Link.allSent p.tcWaitTicks
  { w.2 with
    rxne := false, err := false, rto := false, rxClean := w.1 = .held,
    wire := w.2.wire ++ [.flushed] }

/-- The wait of `READB` (R79). -/
def Link.readWait (p : Params) (l : Link) : WaitEnd × Link := l.waitUntil Link.canRead p.rxWaitTicks

/-- The wait of a `READB` ends with no event left before the host's next input, and the environment never falls silent
(R108, log 3). A power-on that comes next does not land in the wait, which is the model's choice (log 22). -/
def Link.babbles (w : WaitEnd × Link) : Bool := w.1 = .ranDry && !w.2.envSilent

/-- An environment that never falls silent delivers a symbol under no law (log 3). -/
def Link.hearBabble (l : Link) : Link :=
  Link.rx (Config.freeByte l.draws) { l with draws := l.draws + 1 }

/-- A `READB` returns `o`, a symbol or the sentinel, and records it: a symbol clears `rxne`, a failure leaves `rto`
free (R79, log 8). -/
def Link.take (o : Option Sym7) (l : Link) : Res × Link :=
  match o with
  | some v => (⟨false, v.setWidth 16⟩, { l with rxne := false, wire := l.wire ++ [.rxTaken v] })
  | none =>
    (.sentinel, { l with rto := Config.freeBit l.draws, draws := l.draws + 1, wire := l.wire ++ [.rxFail] })

/-- The part of R79 after the wait: a received symbol wins over a timeout. -/
def Link.takeOrFail (l : Link) : Res × Link := l.take (if l.rxne then some (l.rdr.setWidth 7) else none)

/-- The same with `rx_clean = 0` (R78): whether a symbol is taken, and which, is free (log 5). -/
def Link.takeUnclean (l : Link) : Res × Link :=
  Link.take (Config.freeRead l.draws) { l with draws := l.draws + 1 }

/-- `READB` (R78, R79). -/
def Link.readb (p : Params) (l : Link) : Res × Link :=
  let w := l.readWait p
  let k := if Link.babbles w then w.2.hearBabble else w.2
  if k.rxClean then k.takeOrFail else k.takeUnclean

/-- `send_syms(l)` (R86): one `SENDB` for each symbol, in order; an aborted symbol is skipped. -/
def Link.sendSyms (p : Params) (syms : List Byte) (l : Link) : Link :=
  syms.foldl (fun k v => k.sendb p v) l

end Sys2Proof.Machine
end

