-- ==== Sys2Proof/Machine/Operands.lean ====
section
/-! DEFINITION. The operand forms of the sixteen operations and what an operation needs to be accepted: the bounds of
spec 20_memory.md rule R47 and 41_framer.md rule R90, the two-byte values of rule R40, and refusal (60_exceptions.md
rule R131). There is one addressing mode, absolute (44_arithmetic_control_system.md rule R163). -/

namespace Sys2Proof.Machine

/-- The `n` cells from `a` lie in `BUF` (R47). -/
def bufRange (a n : Nat) : Bool := a + n ≤ Config.bufBytes

/-- The `8 * n` symbols of `n` bytes fit `SYM` (R47, R90). -/
def symRange (n : Nat) : Bool := 8 * n ≤ Config.symCap

/-- The one cell `a` lies in `BUF` (R47). -/
def bufAddr (a : Nat) : Bool := a < Config.bufBytes

/-- `{BUF[a+1], BUF[a]}`: the low byte at the lower address (R40). -/
def State.bufHalf (s : State) (a : Nat) : Half := s.bufByte (a + 1) ++ s.bufByte a

/-- `[v[7:0], v[15:8]]` (R40). -/
def halfBytes (v : Half) : List Byte := [v.extractLsb' 0 8, v.extractLsb' 8 8]

/-- Why an operation is refused, if it is (R131). `wire`: it touches the wire; `seed`: it needs a seeded CRC. Which
reason is named when several apply is not observable (R128). -/
def refusalOf (inRange wire seed : Bool) (s : State) : Option Refusal :=
  if s.busy then some .busy
  else if !inRange then some .operandOutOfRange
  else if wire && !s.link.cfgEn then some .channelNotReady
  else if seed && !s.crcValid then some .crcNotSeeded
  else none

/-- An operation is offered: refused, or run to its end (R22, R131; log 19). -/
def offer (inRange wire seed : Bool) (s : State) (run : Result) : Result :=
  match refusalOf inRange wire seed s with
  | some r => .refused r
  | none => run

end Sys2Proof.Machine
end

