-- ==== Sys2Proof/Machine/BitChannel.lean ====
section
/-! DEFINITION. The meanings of `SENDB`, `READB`, `FLUSH` (spec 40_bitchannel.md). -/

namespace Sys2Proof.Machine

/-- `SENDB imm8` (R75). -/
def execSendb (v : Byte) (s : State) : Result :=
  offer true true false s (.next (s.onLink (Link.sendb s.cfg v)))

/-- `READB` (R78, R79). -/
def execReadb (s : State) : Result :=
  offer true true false s (.next { s with link := (s.link.readb s.cfg).2, res := (s.link.readb s.cfg).1 })

/-- `FLUSH` (R83). -/
def execFlush (s : State) : Result :=
  offer true true false s (.next (s.onLink (Link.flush s.cfg)))

end Sys2Proof.Machine
end

