-- ==== Sys2Proof/Machine/Crc16.lean ====
section
/-! DEFINITION. The CRC generator and the meanings of `CRC.SEED`, `CRC.UPD`, `CRC.GET` (spec 42_crc16.md). -/

namespace Sys2Proof.Machine

/-- `crc_bit(c, d)` (R111). -/
def crcBit (c : Half) (d : Bool) : Half :=
  if d != c.msb then (c <<< 1) ^^^ Config.crcPoly else c <<< 1

/-- The order in which the bits of a byte enter `crc_bit` (R112, R113). -/
def crcBitOrderList : CrcBitOrder → List Nat
  | .msbFirst => [7, 6, 5, 4, 3, 2, 1, 0]
  | .lsbFirst => [0, 1, 2, 3, 4, 5, 6, 7]

/-- `crc_byte(c, x)` (R113). -/
def crcByte (o : CrcBitOrder) (c : Half) (x : Byte) : Half :=
  (crcBitOrderList o).foldl (fun c i => crcBit c (x.getLsbD i)) c

/-- `crc_bytes(c, l)` (R114). -/
def crcBytes (o : CrcBitOrder) (c : Half) (l : List Byte) : Half := l.foldl (crcByte o) c

/-- `CRC.SEED a` (R116). -/
def execCrcSeed (a : Nat) (s : State) : Result :=
  offer (bufRange a 2) false false s (.next { s with crc := s.bufHalf a, crcValid := true })

/-- `CRC.UPD a, n` (R117). -/
def execCrcUpd (a n : Nat) (s : State) : Result :=
  offer (bufRange a n) false true s (.next { s with crc := crcBytes s.cfg.crcBitOrder s.crc (s.bufRead a n) })

/-- `CRC.GET a` (R118). -/
def execCrcGet (a : Nat) (s : State) : Result :=
  offer (bufRange a 2) false true s (.next (s.bufWrite a (halfBytes s.crc)))

end Sys2Proof.Machine
end

