-- ==== Sys2Proof/Machine/Codec.lean ====
section
/-! DEFINITION. The codec between bytes and bit symbols (spec 41_framer.md rules R91 to R94). -/

namespace Sys2Proof.Machine

/-- `sym(b)`: the symbol of one data bit (R58, R92). -/
def bitSym (p : Params) (b : Bool) : Byte := if b then p.symBit1 else p.symBit0

/-- `enc_byte(x)`: 8 symbols, bit 0 first (R91, R92). -/
def encByte (p : Params) (x : Byte) : List Byte := (List.range 8).map fun i => bitSym p (x.getLsbD i)

/-- `encode(l)` (R93). -/
def encodeBytes (p : Params) (l : List Byte) : List Byte := l.flatMap (encByte p)

/-- The data bit a received symbol is read as, after the 7-bit mask (R59, R94). -/
def symBit (p : Params) (g : Byte) : Bool := p.near (g.setWidth 7)

/-- A byte from its bits, bit 0 first. -/
def byteOfBits : List Bool → Byte
  | [] => 0
  | b :: t => (byteOfBits t <<< 1) ||| (if b then 1 else 0)

/-- `dec_byte(g)`, g of 8 symbols (R94). -/
def decByte (p : Params) (g : List Byte) : Byte := byteOfBits (g.map (symBit p))

/-- `decode(s)` (R94): groups of 8 from the first symbol; a tail of fewer than 8 contributes nothing. -/
def decodeSyms (p : Params) : List Byte → List Byte
  | g0 :: g1 :: g2 :: g3 :: g4 :: g5 :: g6 :: g7 :: rest =>
    decByte p [g0, g1, g2, g3, g4, g5, g6, g7] :: decodeSyms p rest
  | _ => []

/-- The symbols a flag byte goes on the wire as (R89): encoded like any byte, or raw. -/
def flagSyms (p : Params) (f : Byte) : List Byte := if p.flagEncoded then encByte p f else [f]

end Sys2Proof.Machine
end

