-- ==== Sys2Proof/Machine/Framer.lean ====
section
/-! DEFINITION. The meanings of the eight Framer operations (spec 41_framer.md). -/

namespace Sys2Proof.Machine

/-! ### Conversion only -/

/-- `ENC a, n` (R96). -/
def execEnc (a n : Nat) (s : State) : Result :=
  offer (bufRange a n && symRange n) false false s
    (.next ((s.symLoad (encodeBytes s.cfg (s.bufRead a n))).setRes (8 * n)))

/-- `DEC a, cap` (R97). -/
def execDec (a cap : Nat) (s : State) : Result :=
  let d := (decodeSyms s.cfg s.symRead).take cap
  offer (bufRange a cap) false false s (.next ((s.bufWrite a d).setRes d.length))

/-! ### Transmission -/

/-- `send_flag(f)` (R89). -/
def Link.sendFlag (p : Params) (f : Byte) (l : Link) : Link := l.sendSyms p (flagSyms p f)

/-- `SENDBYTES a, n` (R98). -/
def execSendBytes (a n : Nat) (s : State) : Result :=
  offer (bufRange a n) true false s
    (.next (s.onLink (Link.sendSyms s.cfg (encodeBytes s.cfg (s.bufRead a n)))))

/-- `FLAG.CMD` (R100). -/
def execFlagCmd (s : State) : Result :=
  offer true true false s (.next (s.onLink (Link.sendFlag s.cfg s.cfg.flagCmd)))

/-- `FLAG.TX` (R101). -/
def execFlagTx (s : State) : Result :=
  offer true true false s (.next (s.onLink (Link.sendFlag s.cfg s.cfg.flagTx)))

/-- `FLAG.IDLE` (R102). -/
def execFlagIdle (s : State) : Result :=
  offer true true false s (.next (s.onLink (Link.sendFlag s.cfg s.cfg.flagIdle)))

/-- `FLAG.SLEEP` (R103). -/
def execFlagSleep (s : State) : Result :=
  offer true true false s (.next (s.onLink (Link.sendFlag s.cfg s.cfg.flagSleep)))

/-! ### Response collection -/

/-- The loop of `COLLECT` (R104): the symbols taken until a `READB` fails, after `acc`. `none`: the loop does not end,
not even where a power-on is next on the agenda (the model's choice, log 22).
A turn that takes a symbol takes at least one event of the agenda, or one of the at most two echoes of a
healthy transmitter, so `fuel` at three above the length of the agenda is enough. -/
def Link.readLoop (p : Params) : Nat → List Sym7 → Link → Option (List Sym7 × Link)
  | 0, _, _ => none
  | fuel + 1, acc, l =>
    let w := l.readWait p
    if Link.babbles w then none
    else
      let r := w.2.takeOrFail
      if r.1.fail then some (acc, r.2)
      else Link.readLoop p fuel (acc ++ [r.1.val.setWidth 7]) r.2

/-- The loop when the `FLUSH` before it timed out (R78): each `READB` waits as always and returns what has been drawn
for it, and the one behind the last symbol fails. `none`: the environment never falls silent (R108, log 3). -/
def Link.readDrawn (p : Params) : List Sym7 → Link → Option Link
  | [], l =>
    let w := l.readWait p
    if Link.babbles w then none else some (w.2.take none).2
  | v :: t, l =>
    let w := l.readWait p
    if Link.babbles w then none else Link.readDrawn p t (w.2.take (some v)).2

/-- The response after a `FLUSH` that timed out: a finite burst under no law (R78, R105, log 6). -/
def Link.uncleanResponse (p : Params) (l : Link) : Option (List Sym7 × Link) :=
  let r := Config.freeBurst l.draws
  (Link.readDrawn p r { l with draws := l.draws + 1 }).map fun k => (r, k)

/-- The symbols of one response, up to the first failing `READB` (R104, R105). -/
def Link.response (p : Params) (l : Link) : Option (List Sym7 × Link) :=
  if l.rxClean then l.readLoop p (l.inputs.length + 3) [] else l.uncleanResponse p

/-- The byte count `COLLECT` reports for `t` symbols and capacity `cap` (R106). -/
def reportedCount (p : Params) (cap t : Nat) : Nat :=
  if t ≤ 8 * cap then t / 8
  else match p.overreadCount with
    | .stored => cap
    | .total => min (t / 8) 0xFFFE

/-- The end of `COLLECT` (R104): the symbols that fit are stored and decoded, the rest dropped. -/
def State.storeResponse (a cap : Nat) (r : List Sym7) (s : State) : State :=
  let kept : List Byte := (r.take (8 * cap)).map (·.setWidth 8)
  ((s.symLoad kept).bufWrite a (decodeSyms s.cfg kept)).setRes (reportedCount s.cfg cap r.length)

/-- The channel when `COLLECT` begins to read: the flag sent, the receive path flushed (R104). -/
def Link.askForResponse (p : Params) (l : Link) : Link := (l.sendFlag p p.flagTx).flush p

/-- `COLLECT a, cap` (R104). -/
def execCollect (a cap : Nat) (s : State) : Result :=
  offer (bufRange a cap && symRange cap) true false s
    (match (s.link.askForResponse s.cfg).response s.cfg with
      | none => .fault .collectNeverEnds
      | some r => .next ({ s with link := r.2 }.storeResponse a cap r.1))

end Sys2Proof.Machine
end

