-- ==== Sys2Proof/Machine/HostBuffer.lean ====
section
/-! DEFINITION. The meanings of `STB` and `LDB` (spec 43_host_buffer.md). -/

namespace Sys2Proof.Machine

/-- `STB a, imm8` (R122). -/
def execStb (a : Nat) (v : Byte) (s : State) : Result :=
  offer (bufAddr a) false false s (.next (s.bufWrite a [v]))

/-- `LDB a` (R123): zero-extended. -/
def execLdb (a : Nat) (s : State) : Result :=
  offer (bufAddr a) false false s (.next (s.setRes (s.bufByte a).toNat))

end Sys2Proof.Machine
end

