-- ==== Sys2Proof/Machine/WireSymbols.lean ====
section
/-! DEFINITION. The meanings of the six symbol rows of the opcode table (spec 30_encoding.md rules R57 to R60): the
symbol arrives at the block's end of the wire, and the receiver latches it by E-RX (10_state.md rule R34). No inbound
value is illegal (R66). That the rows are read as arrivals is log 15. -/

namespace Sys2Proof.Machine

/-- A symbol arrives (R34); while the channel is not ready it is not latched (log 16). -/
def symbolArrives (v : Byte) (s : State) : Result := .next (s.onLink (Link.rx v))

/-- `SYM.BIT0` arrives (R58). -/
def execSymBit0 (s : State) : Result := symbolArrives s.cfg.symBit0 s

/-- `SYM.BIT1` arrives (R58). -/
def execSymBit1 (s : State) : Result := symbolArrives s.cfg.symBit1 s

/-- `FLAGBYTE.CMD` arrives as one symbol (R60). -/
def execFlagByteCmd (s : State) : Result := symbolArrives s.cfg.flagCmd s

/-- `FLAGBYTE.TX` arrives as one symbol (R60). -/
def execFlagByteTx (s : State) : Result := symbolArrives s.cfg.flagTx s

/-- `FLAGBYTE.IDLE` arrives as one symbol (R60). -/
def execFlagByteIdle (s : State) : Result := symbolArrives s.cfg.flagIdle s

/-- `FLAGBYTE.SLEEP` arrives as one symbol (R60). -/
def execFlagByteSleep (s : State) : Result := symbolArrives s.cfg.flagSleep s

end Sys2Proof.Machine
end

