-- ==== Sys2Proof/Machine/Dispatch.lean ====
section
/-! DEFINITION. The one match from an instruction to its meaning, one arm for each constructor. -/

namespace Sys2Proof.Machine

/-- The effect of an instruction on a state. -/
def exec (i : Instr) (s : State) : Host.Outcome State Fault Refusal :=
  match i with
  | .sendb v => Sys2Proof.Machine.execSendb v s
  | .readb => Sys2Proof.Machine.execReadb s
  | .flush => Sys2Proof.Machine.execFlush s
  | .enc a n => Sys2Proof.Machine.execEnc a n s
  | .dec a cap => Sys2Proof.Machine.execDec a cap s
  | .sendBytes a n => Sys2Proof.Machine.execSendBytes a n s
  | .flagCmd => Sys2Proof.Machine.execFlagCmd s
  | .flagTx => Sys2Proof.Machine.execFlagTx s
  | .flagIdle => Sys2Proof.Machine.execFlagIdle s
  | .flagSleep => Sys2Proof.Machine.execFlagSleep s
  | .collect a cap => Sys2Proof.Machine.execCollect a cap s
  | .crcSeed a => Sys2Proof.Machine.execCrcSeed a s
  | .crcUpd a n => Sys2Proof.Machine.execCrcUpd a n s
  | .crcGet a => Sys2Proof.Machine.execCrcGet a s
  | .stb a v => Sys2Proof.Machine.execStb a v s
  | .ldb a => Sys2Proof.Machine.execLdb a s
  | .symBit0 => Sys2Proof.Machine.execSymBit0 s
  | .symBit1 => Sys2Proof.Machine.execSymBit1 s
  | .flagByteCmd => Sys2Proof.Machine.execFlagByteCmd s
  | .flagByteTx => Sys2Proof.Machine.execFlagByteTx s
  | .flagByteIdle => Sys2Proof.Machine.execFlagByteIdle s
  | .flagByteSleep => Sys2Proof.Machine.execFlagByteSleep s

end Sys2Proof.Machine
end

