-- ==== Sys2Proof/Machine/HostSteps.lean ====
section
/-! DEFINITION. What can happen to the machine beside its instructions: bus initialisation (spec
70_reset_and_hazards.md rule R146), a direct store of the host (10_state.md rule R27), power-on (R143), a step of the
environment, and the transmitter's progress while the host is idle (R32). -/

namespace Sys2Proof.Machine

/-- Bus initialisation of the channel (R146). The transmitter is left with nothing in flight, as `tc = 1` says
(log 20). -/
def Link.busInit (p : Params) (l : Link) : Link :=
  { l with
    cfgBaud := Config.baud, cfgRto := p.rtoChars, cfgEn := true,
    txe := true, tsrBusy := false, tc := true, rxne := false, rto := false, err := false, rxClean := false }

/-- The host runs bus initialisation (R146); it is the host's to run it while idle. -/
def stepBusInit (s : State) : Result := offer true false false s (.next (s.onLink (Link.busInit s.cfg)))

/-- The host writes its buffer directly (R27, log 21). -/
def stepHostStore (a : Nat) (v : Byte) (s : State) : Result :=
  offer (bufAddr a) false false s (.next (s.bufWrite a [v]))

/-- Power-on (R143): the state of R37 under the same parameters; the agenda goes on (log 22). -/
def stepPowerOn (s : State) : Result :=
  .next { State.atPowerOn s.cfg (s.boot + 1) with
    link := { Link.atPowerOn (s.boot + 1) with
      inputs := s.link.inputs, txHealthy := s.link.txHealthy, envSilent := s.link.envSilent,
      draws := s.link.draws } }

/-- An event of the environment between operations. -/
def stepEnv (e : EnvEvent) (s : State) : Result := .next (s.onLink (Link.apply e))

/-- Nothing is on the agenda: the block does nothing (R144), and a healthy transmitter moves on (R32, log 18). -/
def stepIdle (s : State) : Result :=
  .next (if s.link.txHealthy && s.link.sending then s.onLink Link.txStep else s)

end Sys2Proof.Machine
end

