-- ==== Sys2Proof/Machine/Fetch.lean ====
section
/-! DEFINITION. What the machine does with a word it takes in: the decoder under the machine's own parameters, then
`exec` (spec 30_encoding.md rule R64). -/

namespace Sys2Proof.Machine

/-- The refusal of a command word that spells no operation (R64, R131). -/
def refusalOfDecode : DecodeError → Refusal
  | .unusedFieldNotZero => .unusedFieldNotZero
  | .reservedOp => .reservedOp
  | .unnamedSymbol => .reservedOp

/-- A word is taken in. A symbol without a name of its own arrives like any other: no inbound value is illegal
(R66). -/
def stepWord (w : CodeWord) (s : State) : Result :=
  match decodeWith s.cfg w with
  | .ok i => exec i s
  | .error e =>
    match w with
    | .sym8 v => symbolArrives v s
    | .cw32 _ => .refused (refusalOfDecode e)

end Sys2Proof.Machine
end

