-- ==== Sys2Proof/Machine/Step.lean ====
section
/-! DEFINITION. One step of the machine: the next item of the agenda is taken and has its whole effect (spec
20_memory.md rule R50, log 1). -/

namespace Sys2Proof.Machine

/-- `s` with the agenda replaced. -/
def State.withInputs (l : List Input) (s : State) : State := s.onLink fun k => { k with inputs := l }

/-- One step. -/
def step (s : State) : Host.Outcome State Fault Refusal :=
  match s.link.inputs with
  | [] => stepIdle s
  | .word w :: rest => stepWord w (s.withInputs rest)
  | .env e :: rest => stepEnv e (s.withInputs rest)
  | .amid e :: rest => stepEnv e (s.withInputs rest)
  | .busInit :: rest => stepBusInit (s.withInputs rest)
  | .hostStore a v :: rest => stepHostStore a v (s.withInputs rest)
  | .powerOn :: rest => stepPowerOn (s.withInputs rest)

/-- `s` with an opcode-table word as the first item of the agenda: the next step takes it in (log 18). -/
def State.withFetchWord (s : State) (nbits w : Nat) : State :=
  s.withInputs (.word (codeWordOfBits nbits w) :: s.link.inputs)

end Sys2Proof.Machine
end

