-- ==== Sys2Proof/Safety.lean ====
section
/-! DEFINITION. What a safe state is, and the terms claims are stated in: the invariant of the machine, what has been
handed to the transmitter, which operations touch what, and which are refused (spec 60_exceptions.md rule R131). -/

namespace Sys2Proof.Machine

/-! ### The invariant -/

/-- What holds of the channel in every run. -/
structure Link.Inv (p : Params) (l : Link) : Prop where
  /-- `tc = 1` means no symbol is in `TDR` and none is being shifted (R18) -/
  tcMeans : l.tc = (l.txe && !l.tsrBusy)
  /-- a clean receive path has no transmission behind it (R30, R83) -/
  cleanMeans : l.rxClean = true → l.tc = true
  /-- before bus initialisation nothing has happened on the channel (R37) -/
  unready : l.cfgEn = false →
    l.txe = true ∧ l.tsrBusy = false ∧ l.rxne = false ∧ l.rto = false ∧ l.err = false ∧ l.rxClean = false ∧ l.wire = []
  /-- a ready channel is configured (R24, R146) -/
  ready : l.cfgEn = true → l.cfgBaud = Config.baud ∧ l.cfgRto = p.rtoChars

/-- What holds of the machine in every run. -/
structure Inv (s : State) : Prop where
  /-- the parameters meet their laws (R5) -/
  lawful : s.cfg.Lawful
  /-- between steps no operation is in progress (R22, log 19) -/
  idle : s.busy = false
  /-- the channel -/
  link : s.link.Inv s.cfg
  /-- `BUF` keeps its canonical form inside its 512 cells (R27, R47) -/
  bufWf : memWf Config.bufBytes s.buf = true
  /-- `SYM` keeps its canonical form inside its 4096 cells (R28, R47) -/
  symWf : memWf Config.symCap s.sym = true
  /-- `SYMLEN` is in 0 .. SYM_CAP (R26) -/
  symLenBound : s.symLen ≤ Config.symCap
  /-- every valid symbol has been written (R28) -/
  symValid : ∀ i < s.symLen, (memLookup s.sym i).isSome = true
  /-- a failure is reported by the sentinel (R16, R124) -/
  failMeans : s.res.fail = true → s.res = Res.sentinel
  /-- no result is mistaken for the sentinel (R81, R160) -/
  valMeans : s.res.fail = false → s.res.val ≠ 0xFFFF

/-- The table of R37, but for what it leaves unspecified: the registers `TDR`, `TSR`, `RDR`, `CRC`, `CFG.BAUD`,
`CFG.RTO`, and the cells of `BUF` and `SYM`, of which none has been written. -/
structure AsAfterReset (s : State) : Prop where
  cfgEn : s.link.cfgEn = false
  txe : s.link.txe = true
  tsrBusy : s.link.tsrBusy = false
  tc : s.link.tc = true
  rxne : s.link.rxne = false
  rto : s.link.rto = false
  err : s.link.err = false
  rxClean : s.link.rxClean = false
  crcValid : s.crcValid = false
  res : s.res = ⟨true, 0xFFFF⟩
  symLen : s.symLen = 0
  sym : s.sym = []
  buf : s.buf = []
  busy : s.busy = false
  wire : s.link.wire = []

/-! ### What happens to the channel -/

/-- `W`, and behind it the symbol that has been written to `TDR` and not yet taken by the shifter (R31, R76). -/
def Link.sent (l : Link) : List WireEvent := l.wire ++ if l.txe then [] else [.tx l.tdr]

/-- The symbol an event of the wire history put on the wire, if it did. -/
def txSymbol : WireEvent → Option Byte
  | .tx v => some v
  | .rxTaken _ => none
  | .rxFail => none
  | .flushed => none

/-- The symbols that have been handed to the transmitter, in order (R32, R51). -/
def Link.symbolsSent (l : Link) : List Byte := l.sent.filterMap txSymbol

/-- What no operation and no environment event does to the channel: it is not configured anew, the premises on the
environment stay, and `W` only grows (R23 to R25, R31). -/
structure Link.Follows (l k : Link) : Prop where
  cfgEn : k.cfgEn = l.cfgEn
  cfgBaud : k.cfgBaud = l.cfgBaud
  cfgRto : k.cfgRto = l.cfgRto
  txHealthy : k.txHealthy = l.txHealthy
  envSilent : k.envSilent = l.envSilent
  wire : l.wire <+: k.wire

/-- The agenda holds no environment event before the host's next input. -/
def hostNext : List Input → Bool
  | [] => true
  | i :: _ => (envEventOf i).isNone

/-- All that has been taken from the agenda is a run of events that overtake a healthy transmitter (log 2). -/
def onlyAmidTaken (before after : List Input) : Prop := ∃ es : List EnvEvent, before = es.map .amid ++ after

/-! ### Which operations do what -/

/-- The sixteen host operations (R62), as against the symbols of the wire. -/
def isHostOp : Instr → Bool
  | .symBit0 => false
  | .symBit1 => false
  | .flagByteCmd => false
  | .flagByteTx => false
  | .flagByteIdle => false
  | .flagByteSleep => false
  | .sendb _ => true
  | .readb => true
  | .flush => true
  | .enc _ _ => true
  | .dec _ _ => true
  | .sendBytes _ _ => true
  | .flagCmd => true
  | .flagTx => true
  | .flagIdle => true
  | .flagSleep => true
  | .collect _ _ => true
  | .crcSeed _ => true
  | .crcUpd _ _ => true
  | .crcGet _ => true
  | .stb _ _ => true
  | .ldb _ => true

/-- The operations that touch the wire (R23, R72, R90). -/
def touchesWire (i : Instr) : Prop :=
  (∃ v, i = .sendb v) ∨ i = .readb ∨ i = .flush ∨ (∃ a n, i = .sendBytes a n) ∨ i = .flagCmd ∨ i = .flagTx ∨
  i = .flagIdle ∨ i = .flagSleep ∨ ∃ a cap, i = .collect a cap

/-- The operations that hand symbols to the transmitter (R85). -/
def transmits (i : Instr) : Prop :=
  (∃ v, i = .sendb v) ∨ (∃ a n, i = .sendBytes a n) ∨ i = .flagCmd ∨ i = .flagTx ∨ i = .flagIdle ∨ i = .flagSleep ∨
  ∃ a cap, i = .collect a cap

/-- An operand names a cell outside `BUF` or `SYM` (R47): the bounds in plain numbers, 512 bytes and 4096 symbols. -/
def outOfRange : Instr → Prop
  | .enc a n => 512 < a + n ∨ 4096 < 8 * n
  | .dec a cap => 512 < a + cap
  | .sendBytes a n => 512 < a + n
  | .collect a cap => 512 < a + cap ∨ 4096 < 8 * cap
  | .crcSeed a => 512 < a + 2
  | .crcUpd a n => 512 < a + n
  | .crcGet a => 512 < a + 2
  | .stb a _ => 512 ≤ a
  | .ldb a => 512 ≤ a
  | .sendb _ => False
  | .readb => False
  | .flush => False
  | .flagCmd => False
  | .flagTx => False
  | .flagIdle => False
  | .flagSleep => False
  | .symBit0 => False
  | .symBit1 => False
  | .flagByteCmd => False
  | .flagByteTx => False
  | .flagByteIdle => False
  | .flagByteSleep => False

/-- An accepted host operation (R131): none of the reasons to refuse it holds. -/
def Accepted (i : Instr) (s : State) : Prop :=
  s.busy = false ∧ ¬ outOfRange i ∧ (touchesWire i → s.link.cfgEn = true) ∧
  ((∃ a n, i = .crcUpd a n) ∨ (∃ a, i = .crcGet a) → s.crcValid = true)

/-- Two operations in a row: the second runs where the first has led. -/
def thenExec (r : Host.Outcome State Fault Refusal) (i : Instr) : Host.Outcome State Fault Refusal :=
  match r with
  | .next t => exec i t
  | .fault f => .fault f
  | .refused q => .refused q

end Sys2Proof.Machine
end

