-- ==== Sys2Proof/Certificates/Slice0/Obligations.lean ====
section
/-! DEFINITION. The statements for the provers. A free value is never given a value here: each statement about one
holds for every value of it. The parameters stand in the state, so each statement holds for every machine that meets
the laws of spec 00_scope.md rule R5. -/

open Sys2Proof Sys2Proof.Machine

/-! ## Encoding (30_encoding.md) -/

/-- R70: the five worked command words, decoded and encoded. -/
def Obligations.WorkedCommandWords : Prop :=
  (decode (.cw32 0x12010006) = .ok (.sendBytes 0x010 6) ∧ encode (.sendBytes 0x010 6) = .cw32 0x12010006) ∧
  (decode (.cw32 0x0100007F) = .ok (.sendb 0x7F) ∧ encode (.sendb 0x7F) = .cw32 0x0100007F) ∧
  (decode (.cw32 0x17100004) = .ok (.collect 0x100 4) ∧ encode (.collect 0x100 4) = .cw32 0x17100004) ∧
  (decode (.cw32 0x21001005) = .ok (.crcUpd 0x001 5) ∧ encode (.crcUpd 0x001 5) = .cw32 0x21001005) ∧
  (decode (.cw32 0x03000000) = .ok .flush ∧ encode .flush = .cw32 0x03000000)

/-- R61 to R64: decoding the word of a well-formed instruction gives it back, with every operand at every value its
field admits; for the symbols, wherever the six values they stand for are distinct, as the table's are. -/
def Obligations.DecodeInvertsEncode : Prop :=
  (∀ i : Instr, i.WellFormed → decode (encode i) = .ok i) ∧
  ∀ p : Params, [p.symBit0, p.symBit1, p.flagCmd, p.flagTx, p.flagIdle, p.flagSleep].Nodup →
    ∀ i : Instr, i.WellFormed → decodeWith p (encodeWith p i) = .ok i

/-- R64: a word spells at most one instruction, which is well formed and whose word it is. -/
def Obligations.EncodeInvertsDecode : Prop :=
  ∀ (p : Params) (c : CodeWord) (i : Instr), decodeWith p c = .ok i → i.WellFormed ∧ encodeWith p i = c

/-- R64 (a), (b): a command word whose `op` is reserved, or that has something in a field its operation does not use,
is refused. The fields are read from the word as a number. That the refusal names the decoder's reason, also where
others hold, is the model's choice (log 17): the order of reasons is not observable (R128). -/
def Obligations.MalformedWordsRefused : Prop :=
  ∀ (s : State) (w : BitVec 32) (rest : List Input), s.link.inputs = .word (.cw32 w) :: rest →
    let op := w.toNat / 2 ^ 24
    let a := w.toNat / 2 ^ 12 % 2 ^ 12
    let b := w.toNat % 2 ^ 12
    (op ∉ [0x01, 0x02, 0x03, 0x10, 0x11, 0x12, 0x13, 0x14, 0x15, 0x16, 0x17, 0x20, 0x21, 0x22, 0x30, 0x31] →
      step s = .refused .reservedOp) ∧
    (op ∈ [0x02, 0x03, 0x13, 0x14, 0x15, 0x16] → a ≠ 0 ∨ b ≠ 0 → step s = .refused .unusedFieldNotZero) ∧
    (op = 0x01 → a ≠ 0 ∨ 256 ≤ b → step s = .refused .unusedFieldNotZero) ∧
    (op ∈ [0x20, 0x22, 0x31] → b ≠ 0 → step s = .refused .unusedFieldNotZero) ∧
    (op = 0x30 → 256 ≤ b → step s = .refused .unusedFieldNotZero)

/-! ## The machine as a whole -/

/-- A word at the head of the agenda that decodes to `i` is taken off it, and the step is `exec` of `i`. That words come
by the agenda, one item a step, is the model's choice (logs 1 and 18), and so is that a symbol of the table that comes
from the wire runs as an instruction, its arrival (log 15; R57, R58, R60). -/
def Obligations.StepRunsDecodedWord : Prop :=
  ∀ (s : State) (c : CodeWord) (rest : List Input) (i : Instr), s.link.inputs = .word c :: rest →
    decodeWith s.cfg c = .ok i → step s = exec i (s.withInputs rest)

/-- Offering the word of a host operation makes the very next step run it, in any state; so does the value that the
machine's own parameters give a symbol of the table (R57, R58, R60). That a program comes from the agenda (log 18), that
the symbol rows run as arrivals (log 15) and that a table word of 8 bits is a symbol (log 26) is the model's choice. -/
def Obligations.FetchWordRunsInstruction : Prop :=
  ∀ (s : State) (i : Instr), i.WellFormed →
    (∀ w, encode i = .cw32 w → step (s.withFetchWord 32 w.toNat) = exec i s) ∧
    (∀ v, encodeWith s.cfg i = .sym8 v → step (s.withFetchWord 8 v.toNat) = exec i s)

/-- Every step keeps the invariant, whatever is on the agenda. -/
def Obligations.StepKeepsInv : Prop :=
  ∀ s t : State, Inv s → step s = .next t → Inv t

/-- The invariant holds after every power-on of every lawful machine; the default parameters are lawful, and the
reset state is such a state. -/
def Obligations.PowerOnMeetsInv : Prop :=
  (∀ (p : Params) (boot : Nat), p.Lawful → Inv (State.atPowerOn p boot)) ∧ Params.default.Lawful ∧ Inv State.reset

/-- R37, R143, R144: after a power-on every piece of state has the value the table gives; with nothing on the agenda
nothing happens. The same holds after a power-on in any state, whose parameters stay; that a power-on
is an item of the agenda is the model's choice (log 22). -/
def Obligations.ResetValues : Prop :=
  (∀ (p : Params) (boot : Nat), AsAfterReset (State.atPowerOn p boot) ∧
    step (State.atPowerOn p boot) = .next (State.atPowerOn p boot)) ∧
  AsAfterReset State.reset ∧
  ∀ (s : State) (rest : List Input), s.link.inputs = .powerOn :: rest →
    ∃ t, step s = .next t ∧ AsAfterReset t ∧ t.cfg = s.cfg ∧ t.link.inputs = rest

/-- R31: but for a power-on, no step takes an event out of the wire history or changes one. -/
def Obligations.WireHistoryOnlyGrows : Prop :=
  ∀ s t : State, step s = .next t → (∀ rest, s.link.inputs ≠ .powerOn :: rest) → s.link.wire <+: t.link.wire

/-- R32, R51: no symbol that has been handed to the transmitter is lost, changed, doubled or overtaken: no step but a
power-on and a bus initialisation does anything to the symbols handed over but add to them, and an instruction that does
not transmit leaves them as they are. That bus initialisation may drop one is the model's choice (log 20). -/
def Obligations.NoSymbolLost : Prop :=
  (∀ s t : State, step s = .next t → (∀ rest, s.link.inputs ≠ .powerOn :: rest) →
    (∀ rest, s.link.inputs ≠ .busInit :: rest) → s.link.symbolsSent <+: t.link.symbolsSent) ∧
  ∀ (i : Instr) (s t : State), exec i s = .next t → ¬ transmits i → t.link.symbolsSent = s.link.symbolsSent

/-- R5: no step changes a parameter of the machine or a premise on its environment. -/
def Obligations.ParametersNeverChange : Prop :=
  ∀ s t : State, step s = .next t →
    t.cfg = s.cfg ∧ t.link.txHealthy = s.link.txHealthy ∧ t.link.envSilent = s.link.envSilent

/-- R15, R109: only `CRC.SEED`, `CRC.UPD` and `CRC.GET` read or write `CRC` and `crc_valid`: any other instruction does
the same whatever they hold, and leaves them as they are. -/
def Obligations.CrcUnitIsolated : Prop :=
  ∀ (i : Instr), (∀ a, i ≠ .crcSeed a) → (∀ a n, i ≠ .crcUpd a n) → (∀ a, i ≠ .crcGet a) →
    ∀ (s : State) (c : Half) (v : Bool),
      (∀ t, exec i s = .next t →
        exec i { s with crc := c, crcValid := v } = .next { t with crc := c, crcValid := v }) ∧
      (∀ f, exec i s = .fault f → exec i { s with crc := c, crcValid := v } = .fault f) ∧
      (∀ r, exec i s = .refused r → exec i { s with crc := c, crcValid := v } = .refused r)

/-- R16, R124: `RES` is written by `READB`, `COLLECT`, `DEC`, `ENC` and `LDB` and by nothing else, and only `READB`
reports a failure, by the sentinel. -/
def Obligations.ResultRegisterWriters : Prop :=
  ∀ (i : Instr) (s t : State), exec i s = .next t →
    t.res = s.res ∨
    (i = .readb ∧ t.res = ⟨true, 0xFFFF⟩) ∨
    ((i = .readb ∨ (∃ a n, i = .enc a n) ∨ (∃ a cap, i = .dec a cap) ∨ (∃ a cap, i = .collect a cap) ∨
      ∃ a, i = .ldb a) ∧ t.res.fail = false)

/-- R163: `BUF` is written by `DEC`, `COLLECT`, `CRC.GET` and `STB` only, `SYM` and `SYMLEN` by `ENC` and `COLLECT`
only. -/
def Obligations.MemoryWriters : Prop :=
  ∀ (i : Instr) (s t : State), exec i s = .next t →
    ((∀ x, t.bufByte x = s.bufByte x) ∨ (∃ a cap, i = .dec a cap) ∨ (∃ a cap, i = .collect a cap) ∨
      (∃ a, i = .crcGet a) ∨ ∃ a v, i = .stb a v) ∧
    ((t.symLen = s.symLen ∧ ∀ x, t.symCell x = s.symCell x) ∨ (∃ a n, i = .enc a n) ∨ ∃ a cap, i = .collect a cap)

/-- R131: a command word that is offered is refused exactly when the block is busy, the word spells no operation, an
operand is out of range, it touches the wire and the channel is not ready, or it is `CRC.UPD` or `CRC.GET` and no
seed has been loaded. -/
def Obligations.RefusedExactlyWhen : Prop :=
  ∀ (s : State) (w : BitVec 32) (rest : List Input), s.link.inputs = .word (.cw32 w) :: rest →
    ((∃ r, step s = .refused r) ↔
      s.busy = true ∨ (∃ e, decodeCw w = .error e) ∨
      ∃ i, decodeCw w = .ok i ∧
        (outOfRange i ∨ (touchesWire i ∧ s.link.cfgEn = false) ∨
          (((∃ a n, i = .crcUpd a n) ∨ ∃ a, i = .crcGet a) ∧ s.crcValid = false)))

/-- R145: what is accepted and what refused directly after reset. -/
def Obligations.AcceptanceAfterReset : Prop :=
  ∀ (p : Params) (boot : Nat),
    (State.atPowerOn p boot).link.cfgEn = false ∧
    (∀ i, touchesWire i → ∃ r, exec i (State.atPowerOn p boot) = .refused r) ∧
    (∀ i, ((∃ a n, i = .enc a n) ∨ (∃ a cap, i = .dec a cap) ∨ (∃ a v, i = .stb a v) ∨ (∃ a, i = .ldb a) ∨
      ∃ a, i = .crcSeed a) → ¬ outOfRange i → ∃ t, exec i (State.atPowerOn p boot) = .next t) ∧
    (∀ i, ((∃ a n, i = .crcUpd a n) ∨ ∃ a, i = .crcGet a) →
      (∃ r, exec i (State.atPowerOn p boot) = .refused r) ∧
      ∀ a t, exec (.crcSeed a) (State.atPowerOn p boot) = .next t → ¬ outOfRange i → ∃ u, exec i t = .next u)

/-- R126, R135: no step of the block faults; the one run without an end, which the model names by a fault, is a
`COLLECT` against an environment that does not fall silent (log 3). -/
def Obligations.OnlyEndlessCollectDoesNotReturn : Prop :=
  (∀ (i : Instr) (s : State) (f : Fault), exec i s = .fault f →
    s.link.envSilent = false ∧ ∃ a cap, i = .collect a cap) ∧
  ∀ (s : State) (f : Fault), s.link.envSilent = true → step s ≠ .fault f

/-- R146: bus initialisation of an idle block sets the three configuration registers, leaves the transmitter and the
receive path idle, and touches nothing else; running it again changes nothing. The unit of `CFG.RTO` (log 14) and that
nothing is left in `TSR` (log 20) are the model's choice. -/
def Obligations.BusInitialisation : Prop :=
  ∀ (s : State) (rest : List Input), s.link.inputs = .busInit :: rest → s.busy = false →
    ∃ t, step s = .next t ∧
      t = { s with link := { s.link with
        cfgBaud := 230400, cfgRto := s.cfg.rtoChars, cfgEn := true, txe := true, tsrBusy := false, tc := true,
        rxne := false, rto := false, err := false, rxClean := false, inputs := rest } } ∧
      ∀ more, step (t.withInputs (.busInit :: more)) = .next (t.withInputs more)

/-! ## Environment steps (10_state.md) -/

/-- R32: E-SHIFT moves the symbol from `TDR` to `TSR` and onto the wire; when it is not enabled nothing happens (the
model's choice, log 16). Under TxHealthy it occurs without being asked for once the agenda is empty (the model's choice,
logs 1, 2 and 18). -/
def Obligations.ShiftStep : Prop :=
  ∀ s : State,
    (∀ rest, s.link.inputs = .env .shift :: rest →
      (s.link.txe = false → s.link.tsrBusy = false →
        step s = .next { s with link := { s.link with
          tsr := s.link.tdr, tsrBusy := true, txe := true, wire := s.link.wire ++ [.tx s.link.tdr], inputs := rest } }) ∧
      (s.link.txe = true ∨ s.link.tsrBusy = true → step s = .next (s.withInputs rest))) ∧
    (s.link.inputs = [] → s.link.txHealthy = true → s.link.txe = false → s.link.tsrBusy = false →
      ∃ t, step s = .next t ∧ t.link.txe = true ∧ t.link.tsrBusy = true ∧ t.link.tsr = s.link.tdr ∧
        t.link.wire = s.link.wire ++ [.tx s.link.tdr])

/-- R33: E-DONE frees the shifter, sets `tc` if nothing waits in `TDR`, and presents the echo to the receiver; when it
is not enabled nothing happens (the model's choice, log 16). -/
def Obligations.DoneStep : Prop :=
  ∀ (s : State) (echo : Byte) (rest : List Input), s.link.inputs = .env (.done echo) :: rest →
    (s.link.tsrBusy = true → ∃ t, step s = .next t ∧
      t = { s with link := { s.link with
        tsrBusy := false, tc := t.link.tc, rxne := true, rdr := t.link.rdr, err := t.link.err, draws := t.link.draws,
        inputs := rest } } ∧
      (s.link.txe = true → t.link.tc = true) ∧ (s.link.txe = false → t.link.tc = s.link.tc) ∧
      (s.link.rxne = false → t.link.rdr = echo ∧ t.link.err = s.link.err) ∧
      (s.link.rxne = true → t.link.err = true ∧ (t.link.rdr = s.link.rdr ∨ t.link.rdr = echo))) ∧
    (s.link.tsrBusy = false → step s = .next (s.withInputs rest))

/-- R34: E-RX latches a symbol in an empty `RDR`; on an overrun `err` is set and `RDR` holds the old or the new
symbol. While the channel is not ready it has no effect (the model's choice, log 16). -/
def Obligations.ReceiveStep : Prop :=
  ∀ (s : State) (v : Byte) (rest : List Input), s.link.inputs = .env (.rx v) :: rest →
    (s.link.cfgEn = true → s.link.rxne = false →
      step s = .next { s with link := { s.link with rdr := v, rxne := true, inputs := rest } }) ∧
    (s.link.cfgEn = true → s.link.rxne = true → ∃ t, step s = .next t ∧
      t = { s with link := { s.link with err := true, rdr := t.link.rdr, draws := t.link.draws, inputs := rest } } ∧
      (t.link.rdr = s.link.rdr ∨ t.link.rdr = v)) ∧
    (s.link.cfgEn = false → step s = .next (s.withInputs rest))

/-- R35, R36: E-RTO sets `rto` and E-ERR sets `err`; while the channel is not ready they have no effect (the model's
choice, log 16). -/
def Obligations.TimeoutAndErrorSteps : Prop :=
  ∀ (s : State) (rest : List Input),
    (s.link.inputs = .env .rto :: rest →
      (s.link.cfgEn = true → step s = .next { s with link := { s.link with rto := true, inputs := rest } }) ∧
      (s.link.cfgEn = false → step s = .next (s.withInputs rest))) ∧
    (s.link.inputs = .env .err :: rest →
      (s.link.cfgEn = true → step s = .next { s with link := { s.link with err := true, inputs := rest } }) ∧
      (s.link.cfgEn = false → step s = .next (s.withInputs rest)))

/-- R58, R60 with R34: each of the six named symbols is latched as its value by a ready receiver that is empty; an
occupied one records an overrun; a channel that is not ready latches nothing (logs 15, 16). R57, R66: any symbol on
the wire, named in the table or not, is the arrival of its value. -/
def Obligations.SymbolsArrive : Prop :=
  (∀ (s : State) (v : Byte) (rest : List Input),
    step (s.withInputs (.word (.sym8 v) :: rest)) = step (s.withInputs (.env (.rx v) :: rest))) ∧
  ∀ (s : State) (i : Instr) (v : Byte),
    (i, v) ∈ [(.symBit0, s.cfg.symBit0), (.symBit1, s.cfg.symBit1), (.flagByteCmd, s.cfg.flagCmd),
      (.flagByteTx, s.cfg.flagTx), (.flagByteIdle, s.cfg.flagIdle), (.flagByteSleep, s.cfg.flagSleep)] →
    (s.link.cfgEn = true → s.link.rxne = false →
      exec i s = .next { s with link := { s.link with rdr := v, rxne := true } }) ∧
    (s.link.cfgEn = true → s.link.rxne = true → ∃ t, exec i s = .next t ∧
      t = { s with link := { s.link with err := true, rdr := t.link.rdr, draws := t.link.draws } } ∧
      (t.link.rdr = s.link.rdr ∨ t.link.rdr = v)) ∧
    (s.link.cfgEn = false → exec i s = .next s)

/-- R58, R59: a bit symbol that arrives and is taken by `READB` is read as the data bit it was sent for. -/
def Obligations.BitSymbolsReadBack : Prop :=
  ∀ (s : State), s.cfg.Lawful → s.busy = false → s.link.cfgEn = true → s.link.rxne = false → s.link.rxClean = true →
    (∃ t, thenExec (exec .symBit1 s) .readb = .next t ∧ t.res.fail = false ∧ s.cfg.near (t.res.val.setWidth 7) = true) ∧
    (∃ t, thenExec (exec .symBit0 s) .readb = .next t ∧ t.res.fail = false ∧ s.cfg.near (t.res.val.setWidth 7) = false)

/-! ## BitChannel (40_bitchannel.md) -/

/-- R75, R76: with the transmit buffer free, `SENDB` writes `TDR` and clears `txe`, `tc` and `rx_clean`; what the receive
path holds after it is left open (R76, D13; log 29); nothing else changes. -/
def Obligations.SendbFillsFreeBuffer : Prop :=
  ∀ (s : State) (v : Byte), Accepted (.sendb v) s → s.link.txe = true →
    ∃ t, exec (.sendb v) s = .next t ∧
      t = { s with link := { s.link with
        tdr := v, txe := false, tc := false, rxClean := false,
        rdr := t.link.rdr, rxne := t.link.rxne, rto := t.link.rto, err := t.link.err, draws := t.link.draws } }

/-- R76, R51: under TxHealthy `SENDB` always hands its symbol over, behind everything handed over before, all of which
is on the wire by then, whatever lands in its wait (R9); it touches nothing but the channel. Which items of the agenda
land in the wait is the model's choice (log 2). -/
def Obligations.SendbUnderTxHealthy : Prop :=
  ∀ (s : State) (v : Byte), Accepted (.sendb v) s → s.link.txHealthy = true →
    ∃ t, exec (.sendb v) s = .next t ∧ t = { s with link := t.link } ∧
      t.link.sent = s.link.sent ++ [.tx v] ∧ t.link.wire = s.link.sent ∧ t.link.tdr = v ∧ t.link.txe = false ∧
      t.link.tc = false ∧ t.link.rxClean = false ∧ onlyAmidTaken s.link.inputs t.link.inputs

/-- R75, R132: where the transmit buffer is not freed, `SENDB` completes, sends nothing and reports nothing: only the
time of its wait has passed (the model's choice, log 4). -/
def Obligations.SendbAbortsSilently : Prop :=
  ∀ (s : State) (v : Byte), Accepted (.sendb v) s → s.link.txHealthy = false → s.link.txe = false →
    hostNext s.link.inputs = true →
    exec (.sendb v) s = .next { s with link := { s.link with ticks := s.link.ticks + s.cfg.txWaitTicks } }

/-- R79: with a clean receive path and a symbol in `RDR`, `READB` takes it at once, whatever `rto` and `err` say, masked
to 7 bits and zero-extended; nothing else changes. -/
def Obligations.ReadbTakesBufferedSymbol : Prop :=
  ∀ s : State, Accepted .readb s → s.link.rxClean = true → s.link.rxne = true →
    exec .readb s = .next { s with
      link := { s.link with rxne := false, wire := s.link.wire ++ [.rxTaken (s.link.rdr.setWidth 7)] },
      res := ⟨false, s.link.rdr.setWidth 16 &&& 0x007F⟩ }

/-- R79: with a clean receive path, no symbol and the timeout condition set, `READB` fails at once with the sentinel;
`rto` is then free. -/
def Obligations.ReadbFailsOnTimeout : Prop :=
  ∀ s : State, Accepted .readb s → s.link.rxClean = true → s.link.rxne = false → s.link.rto = true →
    ∃ t, exec .readb s = .next t ∧
      t = { s with
        link := { s.link with rto := t.link.rto, draws := t.link.draws, wire := s.link.wire ++ [.rxFail] },
        res := ⟨true, 0xFFFF⟩ }

/-- R80: with a clean receive path that is idle, `READB` returns the symbol the environment delivers, masked to 7 bits,
or the sentinel if the environment, silent by premise, delivers nothing before the host's next input (the model's reading
of a silent line, logs 3 and 4); the path stays clean. -/
def Obligations.ReadbWithoutTime : Prop :=
  ∀ s : State, Inv s → Accepted .readb s → s.link.rxClean = true → s.link.rxne = false → s.link.rto = false →
    (∀ v rest, s.link.inputs = .env (.rx v) :: rest →
      ∃ t, exec .readb s = .next t ∧ t.res = ⟨false, v.setWidth 16 &&& 0x007F⟩ ∧ t.link.inputs = rest ∧
        t.link.wire = s.link.wire ++ [.rxTaken (v.setWidth 7)] ∧ t.link.rxClean = true ∧ t.link.rxne = false) ∧
    (hostNext s.link.inputs = true → s.link.envSilent = true →
      ∃ t, exec .readb s = .next t ∧ t.res = ⟨true, 0xFFFF⟩ ∧ t.link.inputs = s.link.inputs ∧
        t.link.wire = s.link.wire ++ [.rxFail] ∧ t.link.rxClean = true ∧ t.link.rxne = false)

/-- R9, R73: a `READB` that sees `RX_WAIT_TICKS` ticks and nothing else fails, and what comes after those ticks is still
on the agenda (the model's choice, log 1). That the counter goes up by just those ticks, and does not wrap, is the
model's choice (log 24). -/
def Obligations.ReadbEndsByBudget : Prop :=
  ∀ (s : State) (rest : List Input), Inv s → Accepted .readb s → s.link.rxClean = true → s.link.rxne = false →
    s.link.rto = false → s.link.inputs = List.replicate s.cfg.rxWaitTicks (.env .tick) ++ rest →
    ∃ t, exec .readb s = .next t ∧ t.res = ⟨true, 0xFFFF⟩ ∧ t.link.inputs = rest ∧
      t.link.ticks = s.link.ticks + s.cfg.rxWaitTicks

/-- R79, R81: an accepted `READB` always completes, in a clean path or not; its result is a value in 0 .. 127 or the
sentinel, the last event of the wire history says which, and it touches only `RES` and the channel, whose
`rx_clean` stays. -/
def Obligations.ReadbResultRange : Prop :=
  ∀ s : State, Accepted .readb s →
    ∃ t, exec .readb s = .next t ∧ t = { s with link := t.link, res := t.res } ∧ s.link.Follows t.link ∧
      t.link.rxClean = s.link.rxClean ∧
      ((t.res.fail = false ∧ t.res.val.toNat ≤ 127 ∧ t.link.wire.getLast? = some (.rxTaken (t.res.val.setWidth 7))) ∨
        (t.res = ⟨true, 0xFFFF⟩ ∧ t.link.wire.getLast? = some .rxFail))

/-- R83: an accepted `FLUSH` always completes: `rxne`, `err`, `rto` are clear, `rx_clean` says whether nothing is in
flight, the wire history ends with `Flushed`, and nothing but the channel is touched. A second `FLUSH` after one
that left a clean path changes nothing but the wire history. -/
def Obligations.FlushEmptiesReceivePath : Prop :=
  ∀ s : State, Accepted .flush s →
    ∃ t, exec .flush s = .next t ∧ t = { s with link := t.link } ∧ s.link.Follows t.link ∧
      t.link.rxne = false ∧ t.link.err = false ∧ t.link.rto = false ∧ t.link.rxClean = t.link.tc ∧
      t.link.wire.getLast? = some .flushed ∧
      (t.link.rxClean = true →
        exec .flush t = .next { t with link := { t.link with wire := t.link.wire ++ [.flushed] } })

/-- R84, R52: under TxHealthy `FLUSH` waits until everything handed over is on the wire, and leaves a clean path, whatever
lands in its wait (R9). Which items of the agenda land in the wait is the model's choice (log 2). -/
def Obligations.FlushUnderTxHealthy : Prop :=
  ∀ s : State, Inv s → Accepted .flush s → s.link.txHealthy = true →
    ∃ t, exec .flush s = .next t ∧ t = { s with link := t.link } ∧ t.link.wire = s.link.sent ++ [.flushed] ∧
      t.link.txe = true ∧ t.link.tsrBusy = false ∧ t.link.tc = true ∧ t.link.rxClean = true ∧ t.link.rxne = false ∧
      t.link.err = false ∧ t.link.rto = false ∧ onlyAmidTaken s.link.inputs t.link.inputs

/-- R9, R83, R153: symbols that arrive while `FLUSH` waits for a transmission to complete are lost: under TxHealthy they
are taken from the agenda, the receive path is empty and clean after it, and what comes behind them on the agenda is
untouched. That `amid` events are those that land in the wait is the model's choice (log 2). -/
def Obligations.FlushLosesEarlyArrivals : Prop :=
  ∀ (s : State) (r : List Byte) (rest : List Input),
    Inv s → Accepted .flush s → s.link.txHealthy = true → s.link.tc = false →
    s.link.inputs = r.map (fun v => .amid (.rx v)) ++ rest → (∀ e more, rest ≠ .amid e :: more) →
    ∃ t, exec .flush s = .next t ∧ t.link.inputs = rest ∧ t.link.wire = s.link.sent ++ [.flushed] ∧
      t.link.rxne = false ∧ t.link.err = false ∧ t.link.rxClean = true

/-- R83: where the transmission does not complete, `FLUSH` empties the receive path all the same and `rx_clean` is 0.
How the wait runs out is the model's choice (log 4). -/
def Obligations.FlushTimesOut : Prop :=
  ∀ s : State, Accepted .flush s → s.link.txHealthy = false → s.link.tc = false → hostNext s.link.inputs = true →
    exec .flush s = .next { s with link := { s.link with
      rxne := false, err := false, rto := false, rxClean := false, wire := s.link.wire ++ [.flushed],
      ticks := s.link.ticks + s.cfg.tcWaitTicks } }

/-! ## Framer: the codec (41_framer.md) -/

/-- R91, R92, R93: `enc_byte` is 8 symbols, symbol i carrying bit i, with the worked example under the default symbols;
`encode` is the concatenation of the bytes' symbols, 8 for each byte. -/
def Obligations.EncodeSymbols : Prop :=
  (∀ (p : Params) (x : Byte), (encByte p x).length = 8 ∧
    ∀ i < 8, (encByte p x)[i]? = some (if x.getLsbD i then p.symBit1 else p.symBit0)) ∧
  encByte Params.default 0xA5 = [0x7F, 0x7D, 0x7F, 0x7D, 0x7D, 0x7F, 0x7D, 0x7F] ∧
  ∀ p : Params, encodeBytes p [] = [] ∧
    (∀ x l, encodeBytes p (x :: l) = encByte p x ++ encodeBytes p l) ∧
    ∀ l, (encodeBytes p l).length = 8 * l.length

/-- R94: `decode` makes `floor(len / 8)` bytes, bit i of byte k from symbol 8k + i after the 7-bit mask; the tail
contributes nothing; the worked examples, with the default parameters. -/
def Obligations.DecodeGroupsOfEight : Prop :=
  (∀ (p : Params) (s : List Byte), (decodeSyms p s).length = s.length / 8 ∧
    ∀ k < s.length / 8, ∀ i < 8,
      ((decodeSyms p s)[k]?.map (·.getLsbD i)) = (s[8 * k + i]?.map fun g => p.near ((g &&& 0x7F).setWidth 7))) ∧
  decByte Params.default [0x7F, 0x7D, 0x7F, 0x7D, 0x7D, 0x7F, 0x7D, 0x7F] = 0xA5 ∧
  decByte Params.default [0x7E, 0x00, 0x7F, 0x3F, 0x7D, 0x7C, 0x55, 0x7E] = 0x85 ∧
  (∀ (p : Params) (s : List Byte), s.length = 15 → (decodeSyms p s).length = 1) ∧
  ∀ (p : Params) (s : List Byte), s.length = 7 → decodeSyms p s = []

/-- R95: what is encoded decodes to itself, through the 7-bit mask of the wire as well, for every lawful choice of the
parameters; the converse does not hold. -/
def Obligations.CodecRoundTrip : Prop :=
  ∀ p : Params, p.Lawful →
    (∀ l : List Byte, decodeSyms p (encodeBytes p l) = l ∧ decodeSyms p ((encodeBytes p l).map (· &&& 0x7F)) = l) ∧
    ∃ s : List Byte, encodeBytes p (decodeSyms p s) ≠ s

/-! ## Framer: the operations -/

/-- R96: `ENC` fills `SYM[0 .. 8n)` with the symbols of n bytes, leaves the cells above, sets `SYMLEN` and `RES`, and
touches nothing else. -/
def Obligations.EncFillsSymbolMemory : Prop :=
  ∀ (s : State) (a n : Nat), Accepted (.enc a n) s →
    ∃ t, exec (.enc a n) s = .next t ∧ t = { s with sym := t.sym, symLen := 8 * n, res := ⟨false, BitVec.ofNat 16 (8 * n)⟩ } ∧
      (∀ k < n, ∀ i < 8,
        t.symCell (8 * k + i) = if (s.bufByte (a + k)).getLsbD i then s.cfg.symBit1 else s.cfg.symBit0) ∧
      ∀ j, 8 * n ≤ j → t.symCell j = s.symCell j

/-- R97: `DEC` stores the decoded bytes, at most `cap`, leaves every other byte, reports how many, and touches nothing
else. -/
def Obligations.DecStoresDecodedBytes : Prop :=
  ∀ (s : State) (a cap : Nat), Accepted (.dec a cap) s →
    let m := min (s.symLen / 8) cap
    ∃ t, exec (.dec a cap) s = .next t ∧ t = { s with buf := t.buf, res := ⟨false, BitVec.ofNat 16 m⟩ } ∧
      (∀ k < m, ∀ i < 8,
        (t.bufByte (a + k)).getLsbD i = s.cfg.near ((s.symCell (8 * k + i) &&& 0x7F).setWidth 7)) ∧
      ∀ x, (x < a ∨ a + m ≤ x) → t.bufByte x = s.bufByte x

/-- R95 on the machine: `ENC` of n bytes and `DEC` of at least n bytes copy them, wherever the two ranges lie. -/
def Obligations.EncThenDecCopies : Prop :=
  ∀ (s : State) (a n b cap : Nat), s.cfg.Lawful → Accepted (.enc a n) s → Accepted (.dec b cap) s → n ≤ cap →
    ∃ t, thenExec (exec (.enc a n) s) (.dec b cap) = .next t ∧ t.res = ⟨false, BitVec.ofNat 16 n⟩ ∧
      (∀ k < n, t.bufByte (b + k) = s.bufByte (a + k)) ∧ ∀ x, (x < b ∨ b + n ≤ x) → t.bufByte x = s.bufByte x

/-- R86, R87: an accepted transmitting operation always completes, whatever the transmitter does, and touches nothing
but the channel: `RES`, `SYM`, `SYMLEN`, `BUF`, `CRC` are unchanged, and the channel is not configured anew. -/
def Obligations.TransmittersTouchOnlyTheChannel : Prop :=
  ∀ (s : State) (i : Instr),
    ((∃ v, i = .sendb v) ∨ (∃ a n, i = .sendBytes a n) ∨ i = .flagCmd ∨ i = .flagTx ∨ i = .flagIdle ∨ i = .flagSleep) →
    Accepted i s → ∃ t, exec i s = .next t ∧ t = { s with link := t.link } ∧ s.link.Follows t.link

/-- R98: under TxHealthy `SENDBYTES` hands over the symbols of the n bytes in order, behind everything before; n = 0
changes nothing, n > 0 leaves an unclean receive path. Which items of the agenda land in its waits is the model's
choice (log 2). -/
def Obligations.SendBytesUnderTxHealthy : Prop :=
  ∀ (s : State) (a n : Nat), Accepted (.sendBytes a n) s → s.link.txHealthy = true →
    ∃ t, exec (.sendBytes a n) s = .next t ∧ t = { s with link := t.link } ∧
      t.link.sent = s.link.sent ++
        ((List.range n).flatMap fun k => (encByte s.cfg (s.bufByte (a + k))).map .tx) ∧
      onlyAmidTaken s.link.inputs t.link.inputs ∧ (n = 0 → t = s) ∧ (0 < n → t.link.rxClean = false)

/-- R98: one `SENDBYTES` of m + n bytes does what one of the first m and one of the last n do, in every state. -/
def Obligations.SendBytesSplits : Prop :=
  ∀ (s : State) (a m n : Nat), Accepted (.sendBytes a (m + n)) s →
    exec (.sendBytes a (m + n)) s = thenExec (exec (.sendBytes a m) s) (.sendBytes (a + m) n)

/-- R89, R100 to R103: under TxHealthy each flag operation hands over its flag's byte, encoded like any byte or, with
`FLAG_ENCODED` = false, as one raw symbol; the receive path is unclean after it. Which items of the agenda land in its
waits is the model's choice (log 2). -/
def Obligations.FlagsUnderTxHealthy : Prop :=
  ∀ (s : State) (i : Instr) (f : Byte),
    (i, f) ∈ [(.flagCmd, s.cfg.flagCmd), (.flagTx, s.cfg.flagTx), (.flagIdle, s.cfg.flagIdle),
      (.flagSleep, s.cfg.flagSleep)] →
    Accepted i s → s.link.txHealthy = true →
    ∃ t, exec i s = .next t ∧ t = { s with link := t.link } ∧ t.link.rxClean = false ∧
      onlyAmidTaken s.link.inputs t.link.inputs ∧
      (s.cfg.flagEncoded = true → t.link.sent = s.link.sent ++ (encByte s.cfg f).map .tx) ∧
      (s.cfg.flagEncoded = false → t.link.sent = s.link.sent ++ [.tx f])

/-- R100: with `FLAG_ENCODED` = true, `FLAG.CMD` and then the rest of a frame is the frame with the flag byte first in
`BUF`, in every state. -/
def Obligations.FlagCommandIsFirstByte : Prop :=
  ∀ (s : State) (a n : Nat), s.cfg.flagEncoded = true → s.bufByte a = s.cfg.flagCmd →
    Accepted (.sendBytes a (n + 1)) s →
    thenExec (exec .flagCmd s) (.sendBytes (a + 1) n) = exec (.sendBytes a (n + 1)) s

/-- R104, R105, R106: under TxHealthy, against an environment that delivers the burst `r` and then falls silent (the
host's next input follows, or the inter-byte timeout), `COLLECT` sends the flag, flushes, takes the burst, stores and
decodes the part that fits, and reports the count; nothing is left in flight or in the receiver, the channel is not
configured anew, and nothing else outside the channel changes. How the agenda shows a burst and a silent line is the
model's choice (logs 1 to 4). -/
def Obligations.CollectUnderTxHealthy : Prop :=
  ∀ (s : State) (a cap : Nat) (r : List Byte) (rest left : List Input),
    Inv s → Accepted (.collect a cap) s → s.link.txHealthy = true → s.link.envSilent = true →
    s.link.inputs = r.map (fun v => .env (.rx v)) ++ rest →
    (hostNext rest = true ∧ left = rest ∨ rest = .env .rto :: left) →
    let stored := min r.length (8 * cap)
    ∃ t, exec (.collect a cap) s = .next t ∧
      t.link.wire = s.link.sent ++ (flagSyms s.cfg s.cfg.flagTx).map .tx ++ [.flushed] ++
        r.map (fun v => .rxTaken (v.setWidth 7)) ++ [.rxFail] ∧
      t.link.inputs = left ∧ s.link.Follows t.link ∧
      t.link.txe = true ∧ t.link.tsrBusy = false ∧ t.link.tc = true ∧ t.link.rxne = false ∧ t.link.err = false ∧
      t.link.rxClean = true ∧
      t = { s with link := t.link, sym := t.sym, symLen := stored, buf := t.buf, res := t.res } ∧
      (∀ j < stored, some (t.symCell j) = r[j]?.map (· &&& 0x7F)) ∧ (∀ j, stored ≤ j → t.symCell j = s.symCell j) ∧
      (∀ k < stored / 8, some (t.bufByte (a + k)) = (decodeSyms s.cfg (r.map (· &&& 0x7F)))[k]?) ∧
      (∀ x, (x < a ∨ a + stored / 8 ≤ x) → t.bufByte x = s.bufByte x) ∧
      t.res.fail = false ∧
      (r.length ≤ 8 * cap → t.res.val = BitVec.ofNat 16 (r.length / 8)) ∧
      (8 * cap < r.length → s.cfg.overreadCount = .stored → t.res.val = BitVec.ofNat 16 cap) ∧
      (8 * cap < r.length → s.cfg.overreadCount = .total → t.res.val = BitVec.ofNat 16 (min (r.length / 8) 0xFFFE))

/-- R104, R106, R108: against an environment that falls silent an accepted `COLLECT` always returns, whatever the
transmitter does, and never reports a failure; the symbols it stores have 7 bits (R28), it stores the bytes they decode
to, and it reports their number, or at least the capacity when that is used up, just the capacity with
`OVERREAD_COUNT` = stored; it leaves `CRC` and every byte it does not decode into, and no symbol above `SYMLEN` changes.
The premise stands in the state as `envSilent` (the model's choice, log 3). -/
def Obligations.CollectReturnsIfSilent : Prop :=
  ∀ (s : State) (a cap : Nat), Accepted (.collect a cap) s → s.link.envSilent = true →
    ∃ t, exec (.collect a cap) s = .next t ∧ t.res.fail = false ∧ t.symLen ≤ 8 * cap ∧
      t = { s with link := t.link, sym := t.sym, symLen := t.symLen, buf := t.buf, res := t.res } ∧
      s.link.Follows t.link ∧
      (∀ j < t.symLen, (t.symCell j).toNat < 128) ∧ (∀ j, t.symLen ≤ j → t.symCell j = s.symCell j) ∧
      (∀ k < t.symLen / 8, some (t.bufByte (a + k)) = (decodeSyms s.cfg ((List.range t.symLen).map t.symCell))[k]?) ∧
      (∀ x, (x < a ∨ a + t.symLen / 8 ≤ x) → t.bufByte x = s.bufByte x) ∧
      (t.symLen < 8 * cap → t.res.val = BitVec.ofNat 16 (t.symLen / 8)) ∧
      (t.symLen = 8 * cap → cap ≤ t.res.val.toNat) ∧
      (t.symLen = 8 * cap → s.cfg.overreadCount = .stored → t.res.val.toNat = cap)

/-- R108: against an environment that never falls silent `COLLECT` does not return, whatever burst of symbols is on the
agenda first; that the run without an end is a fault is the model's choice (log 3). -/
def Obligations.CollectNeverEndsIfNeverSilent : Prop :=
  ∀ (s : State) (a cap : Nat) (r : List Byte) (rest : List Input),
    Inv s → Accepted (.collect a cap) s → s.link.txHealthy = true → s.link.envSilent = false →
    s.link.inputs = r.map (fun v => .env (.rx v)) ++ rest → hostNext rest = true →
    exec (.collect a cap) s = .fault .collectNeverEnds

/-! ## CRC16 (42_crc16.md) -/

/-- R111, R113: the bit step, and the values the two rules list for the bit and the byte step. -/
def Obligations.CrcStepFunctions : Prop :=
  (∀ (c : Half) (d : Bool), crcBit c d = if d ≠ c.getLsbD 15 then (c <<< 1) ^^^ 0x8005 else c <<< 1) ∧
  (crcBit 0x0000 false = 0x0000 ∧ crcBit 0x0000 true = 0x8005 ∧ crcBit 0x8000 false = 0x8005 ∧
    crcBit 0x8000 true = 0x0000 ∧ crcBit 0x4000 false = 0x8000 ∧ crcBit 0xFFFF true = 0xFFFE ∧
    crcBit 0xFFFF false = 0x7FFB) ∧
  (∀ (c : Half) (x : Byte),
    crcByte .msbFirst c x = [7, 6, 5, 4, 3, 2, 1, 0].foldl (fun c i => crcBit c (x.getLsbD i)) c ∧
    crcByte .lsbFirst c x = [0, 1, 2, 3, 4, 5, 6, 7].foldl (fun c i => crcBit c (x.getLsbD i)) c) ∧
  (crcByte .msbFirst 0x0000 0x00 = 0x0000 ∧ crcByte .msbFirst 0x0000 0x01 = 0x8005 ∧
    crcByte .msbFirst 0x0000 0x80 = 0x8303 ∧ crcByte .msbFirst 0x8000 0x00 = 0x8303 ∧
    crcByte .msbFirst 0x8000 0x80 = 0x0000 ∧ crcByte .msbFirst 0xFFFF 0xFF = 0xFF00 ∧
    crcByte .msbFirst 0xFFFF 0x00 = 0xFD02 ∧ crcByte .msbFirst 0x0000 0xFF = 0x0202 ∧
    crcByte .lsbFirst 0x0000 0x01 = 0x8303 ∧ crcByte .lsbFirst 0x0000 0x80 = 0x8005)

/-- R115: the textbook loop computes the same byte step, bit 7 first; with seed 0 the check value over the nine ASCII
bytes "123456789" is 0xFEE8. -/
def Obligations.CrcTextbookLoop : Prop :=
  (∀ (c : Half) (x : Byte),
    crcByte .msbFirst c x =
      (List.range 8).foldl (fun c _ => if c.getLsbD 15 then (c <<< 1) ^^^ 0x8005 else c <<< 1)
        (c ^^^ (x.setWidth 16 <<< 8))) ∧
  crcBytes .msbFirst 0 [0x31, 0x32, 0x33, 0x34, 0x35, 0x36, 0x37, 0x38, 0x39] = 0xFEE8

/-- R119: incrementality, for both orders of the data bits; on the machine, one `CRC.UPD` of m + n bytes does what one
of the first m and one of the last n do. -/
def Obligations.CrcIncremental : Prop :=
  (∀ (o : CrcBitOrder) (seed : Half) (A B : List Byte),
    crcBytes o seed (A ++ B) = crcBytes o (crcBytes o seed A) B) ∧
  ∀ (s : State) (a m n : Nat), Accepted (.crcUpd a (m + n)) s →
    exec (.crcUpd a (m + n)) s = thenExec (exec (.crcUpd a m) s) (.crcUpd (a + m) n)

/-- R120: the empty list leaves the seed; zero absorbs zero bytes; the bit step and the stream are linear over
exclusive-or; with bit 7 first, appending the CRC high byte first leaves zero. -/
def Obligations.CrcAlgebra : Prop :=
  (∀ (o : CrcBitOrder) (seed : Half), crcBytes o seed [] = seed) ∧
  (∀ (o : CrcBitOrder) (n : Nat), crcBytes o 0 (List.replicate n 0) = 0) ∧
  (∀ (c1 c2 : Half) (d1 d2 : Bool), crcBit (c1 ^^^ c2) (d1 ^^ d2) = crcBit c1 d1 ^^^ crcBit c2 d2) ∧
  (∀ (o : CrcBitOrder) (s1 s2 : Half) (l1 l2 : List Byte), l1.length = l2.length →
    crcBytes o (s1 ^^^ s2) (List.zipWith (· ^^^ ·) l1 l2) = crcBytes o s1 l1 ^^^ crcBytes o s2 l2) ∧
  ∀ (seed : Half) (l : List Byte),
    let c := crcBytes .msbFirst seed l
    crcBytes .msbFirst seed (l ++ [c.extractLsb' 8 8, c.extractLsb' 0 8]) = 0

/-- R116: `CRC.SEED` loads `CRC` from two bytes, the low byte at the lower address, marks it seeded, and touches nothing
else, so the second of two seeds wins; bytes outside `BUF` are refused; its word has `op` 0x20, `a`, and `b` zero. -/
def Obligations.CrcSeedLoadsSeed : Prop :=
  (∀ (s : State) (a : Nat), Accepted (.crcSeed a) s →
    ∃ t, exec (.crcSeed a) s = .next t ∧ t = { s with crc := t.crc, crcValid := true } ∧
      t.crc.toNat = (s.bufByte a).toNat + 256 * (s.bufByte (a + 1)).toNat) ∧
  (∀ (s : State) (a b : Nat), Accepted (.crcSeed a) s → Accepted (.crcSeed b) s →
    thenExec (exec (.crcSeed a) s) (.crcSeed b) = exec (.crcSeed b) s) ∧
  (∀ (s : State) (a : Nat), 512 < a + 2 → ∃ r, exec (.crcSeed a) s = .refused r) ∧
  ∀ a < 4096, encode (.crcSeed a) = .cw32 (BitVec.ofNat 32 (0x20000000 + 4096 * a))

/-- R117, R114: `CRC.UPD` folds n bytes into `CRC` in ascending address order, in the machine's bit order, and touches
nothing else; n = 0 changes nothing. -/
def Obligations.CrcUpdFoldsBytes : Prop :=
  ∀ (s : State) (a n : Nat), Accepted (.crcUpd a n) s →
    ∃ t, exec (.crcUpd a n) s = .next t ∧ t = { s with crc := t.crc } ∧
      t.crc = (List.range n).foldl (fun c k => crcByte s.cfg.crcBitOrder c (s.bufByte (a + k))) s.crc ∧
      (n = 0 → t = s)

/-- R118: `CRC.GET` stores `CRC`, the low byte at the lower address, and touches no other byte and nothing else; used
as a seed, the bytes restore `CRC`; it is refused where the bytes lie outside `BUF` and before any seed; its word has
`op` 0x22, `a`, and `b` zero. -/
def Obligations.CrcGetStoresRegister : Prop :=
  (∀ (s : State) (a : Nat), Accepted (.crcGet a) s →
    (∃ t, exec (.crcGet a) s = .next t ∧ t = { s with buf := t.buf } ∧
      (t.bufByte a).toNat = s.crc.toNat % 256 ∧ (t.bufByte (a + 1)).toNat = s.crc.toNat / 256 ∧
      ∀ x, (x < a ∨ a + 2 ≤ x) → t.bufByte x = s.bufByte x) ∧
    ∃ u, thenExec (exec (.crcGet a) s) (.crcSeed a) = .next u ∧ u.crc = s.crc ∧ u.crcValid = true) ∧
  (∀ (s : State) (a : Nat), 512 < a + 2 ∨ s.crcValid = false → ∃ r, exec (.crcGet a) s = .refused r) ∧
  ∀ a < 4096, encode (.crcGet a) = .cw32 (BitVec.ofNat 32 (0x22000000 + 4096 * a))

/-! ## Host buffer (43_host_buffer.md) -/

/-- R122: `STB` stores its byte, whether or not the channel is ready, and touches no other byte and nothing else; an
address outside `BUF` is refused. A direct store of the host (R27) does the same; that it is an item of the agenda
and stops in the same way is the model's choice (log 21). -/
def Obligations.StbStoresByte : Prop :=
  (∀ (s : State) (a : Nat) (v : Byte), Accepted (.stb a v) s →
    ∃ t, exec (.stb a v) s = .next t ∧ t = { s with buf := t.buf } ∧ t.bufByte a = v ∧
      ∀ x, x ≠ a → t.bufByte x = s.bufByte x) ∧
  (∀ (s : State) (a : Nat) (v : Byte), 512 ≤ a → ∃ r, exec (.stb a v) s = .refused r) ∧
  ∀ (s : State) (a : Nat) (v : Byte) (rest : List Input),
    step (s.withInputs (.hostStore a v :: rest)) = exec (.stb a v) (s.withInputs rest)

/-- R123: `LDB` loads one byte into `RES`, zero-extended, whether or not the channel is ready, and touches nothing
else; a cell that nothing has written yields a free value, the same at the next read (R38, R46, log 10); an address
outside `BUF` is refused. -/
def Obligations.LdbLoadsByte : Prop :=
  (∀ (s : State) (a : Nat), Accepted (.ldb a) s →
    exec (.ldb a) s = .next { s with res := ⟨false, (s.bufByte a).setWidth 16⟩ } ∧
    thenExec (exec (.ldb a) s) (.ldb a) = exec (.ldb a) s) ∧
  ∀ (s : State) (a : Nat), 512 ≤ a → ∃ r, exec (.ldb a) s = .refused r
end

