-- ==== Sys2Proof/Laws/Codec.lean ====
section
/-! SUPPORT. The small lemmas of the codec: lengths, and how a stream splits into groups of eight. -/

namespace Sys2Proof.Machine

@[simp] theorem length_encByte (p : Params) (x : Byte) : (encByte p x).length = 8 := by simp [encByte]

@[simp] theorem length_encodeBytes (p : Params) (l : List Byte) : (encodeBytes p l).length = 8 * l.length := by
  induction l with
  | nil => rfl
  | cons x t ih => simp only [encodeBytes, List.flatMap_cons, List.length_append] at ih ⊢; simp [ih]; omega

theorem encodeBytes_append (p : Params) (l m : List Byte) :
    encodeBytes p (l ++ m) = encodeBytes p l ++ encodeBytes p m := by simp [encodeBytes]

theorem encodeBytes_cons (p : Params) (x : Byte) (l : List Byte) :
    encodeBytes p (x :: l) = encByte p x ++ encodeBytes p l := by simp [encodeBytes]

/-- A group of eight symbols is one byte (R94). -/
theorem decodeSyms_group (p : Params) (g rest : List Byte) (h : g.length = 8) :
    decodeSyms p (g ++ rest) = decByte p g :: decodeSyms p rest := by
  match g, h with
  | [a, b, c, d, e, f, x, y], _ => rfl

/-- Fewer than eight symbols are no byte (R94). -/
theorem decodeSyms_short (p : Params) (s : List Byte) (h : s.length < 8) : decodeSyms p s = [] := by
  match s, h with
  | [], _ => rfl
  | [_], _ => rfl
  | [_, _], _ => rfl
  | [_, _, _], _ => rfl
  | [_, _, _, _], _ => rfl
  | [_, _, _, _, _], _ => rfl
  | [_, _, _, _, _, _], _ => rfl
  | [_, _, _, _, _, _, _], _ => rfl

@[simp] theorem length_decodeSyms (p : Params) (s : List Byte) : (decodeSyms p s).length = s.length / 8 := by
  induction s using decodeSyms.induct with
  | case1 g0 g1 g2 g3 g4 g5 g6 g7 rest ih => simp only [decodeSyms, List.length_cons, ih]; omega
  | case2 s h =>
    have hs : s.length < 8 := by
      rcases s with _ | ⟨_, _ | ⟨_, _ | ⟨_, _ | ⟨_, _ | ⟨_, _ | ⟨_, _ | ⟨_, _ | ⟨_, s⟩⟩⟩⟩⟩⟩⟩⟩ <;>
        first
        | exact (h _ _ _ _ _ _ _ _ _ rfl).elim
        | simp
    rw [decodeSyms_short p s hs]; simp; omega

/-! ### Bit by bit -/

theorem getLsbD_byteOfBits (l : List Bool) (i : Nat) (hi : i < 8) : (byteOfBits l).getLsbD i = l[i]?.getD false := by
  induction l generalizing i with
  | nil => simp [byteOfBits]
  | cons b t ih =>
    unfold byteOfBits
    cases i with
    | zero => cases b <;> simp
    | succ i =>
      have h1 : (if b = true then (1 : BitVec 8) else 0).getLsbD (i + 1) = false := by cases b <;> simp
      rw [BitVec.getLsbD_or, BitVec.getLsbD_shiftLeft, h1, Nat.add_sub_cancel, ih i (by omega)]
      simp [hi]

/-- Bit `i` of a decoded byte comes from symbol `i` of its group (R94). -/
theorem getLsbD_decByte (p : Params) (g : List Byte) (i : Nat) (hi : i < 8) :
    (decByte p g).getLsbD i = (g[i]?.map (symBit p)).getD false := by
  unfold decByte
  rw [getLsbD_byteOfBits _ _ hi]; simp

/-- The 7-bit mask of the wire (R57) is the mask of the decoder (R94). -/
theorem setWidth_seven_mask (g : Byte) : (g &&& 0x7F).setWidth 7 = g.setWidth 7 := by revert g; decide

theorem symBit_mask (p : Params) (g : Byte) : symBit p (g &&& 0x7F) = symBit p g := by
  unfold symBit; rw [setWidth_seven_mask]

/-- A bit symbol is read as the bit it was sent for (R5, R59). -/
theorem symBit_bitSym {p : Params} (hp : p.Lawful) (b : Bool) : symBit p (bitSym p b) = b := by
  cases b <;> simp [symBit, bitSym, hp.2.2.1, hp.2.2.2.1]

/-- Byte `k` of a decoded stream comes from the group at `8k` (R94). -/
theorem getElem?_decodeSyms (p : Params) (s : List Byte) (k : Nat) (hk : k < s.length / 8) :
    (decodeSyms p s)[k]? = some (decByte p ((s.drop (8 * k)).take 8)) := by
  induction k generalizing s with
  | zero =>
    have : s = s.take 8 ++ s.drop 8 := by simp
    rw [this, decodeSyms_group]
    · simp
    · simp; omega
  | succ k ih =>
    have : s = s.take 8 ++ s.drop 8 := by simp
    conv_lhs => rw [this, decodeSyms_group _ _ _ (by simp; omega)]
    rw [List.getElem?_cons_succ, ih _ (by simp; omega)]
    simp only [List.drop_drop]; congr 4; omega

/-- Decoding the first symbols of a stream gives the first bytes of the stream. -/
theorem getElem?_decodeSyms_take (p : Params) (s : List Byte) (n k : Nat) (hk : k < (s.take n).length / 8) :
    (decodeSyms p (s.take n))[k]? = (decodeSyms p s)[k]? := by
  have h1 : (s.take n).length ≤ s.length := by simp
  have h2 : (s.take n).length ≤ n := by simp
  rw [getElem?_decodeSyms _ _ _ hk, getElem?_decodeSyms _ _ _ (by omega), List.drop_take, List.take_take,
    Nat.min_eq_left (by omega)]

/-- Symbol `8k + i` of an encoded list carries bit `i` of byte `k` (R91, R93). -/
theorem getElem?_encodeBytes (p : Params) (l : List Byte) (k : Nat) (hk : k < l.length) (i : Nat) (hi : i < 8) :
    (encodeBytes p l)[8 * k + i]? = some (bitSym p (l[k].getLsbD i)) := by
  induction l generalizing k with
  | nil => simp at hk
  | cons x t ih =>
    rw [encodeBytes_cons]
    cases k with
    | zero =>
      rw [List.getElem?_append_left (by simp; omega)]
      simp [encByte, hi]
    | succ k =>
      rw [List.getElem?_append_right (by simp; omega), length_encByte,
        show 8 * (k + 1) + i - 8 = 8 * k + i by omega, ih k (by simpa using hk)]
      rfl

/-- A symbol that has come through the wire, back in 8 bits. -/
theorem setWidth_eight_seven (v : Byte) : (v.setWidth 7).setWidth 8 = v &&& 0x7F := by revert v; decide

end Sys2Proof.Machine
end

