-- ==== Sys2Proof/Laws/Encoding.lean ====
section
/-! SUPPORT. The fields of a command word: what each reads from the word the encoder makes, their values as numbers,
and that a word is made from its fields. -/

namespace Sys2Proof.Laws

/-- The bits of a command word, field by field. -/
theorem getElem_mkCw (op : BitVec 8) (a b i : Nat) (h : i < 32) :
    (mkCw op a b)[i] =
      if i < 12 then b.testBit i else if i < 24 then a.testBit (i - 12) else op.getLsbD (i - 24) := by
  unfold mkCw
  rw [BitVec.getElem_append]
  by_cases h1 : i < 12
  · simp [h1, ← BitVec.getLsbD_eq_getElem, BitVec.getLsbD_ofNat]
  · rw [dif_neg h1, if_neg h1, BitVec.getElem_append]
    by_cases h2 : i < 24
    · simp [h2, show i - 12 < 12 by omega, ← BitVec.getLsbD_eq_getElem, BitVec.getLsbD_ofNat]
    · simp [h2, show ¬ i - 12 < 12 by omega, show i - 12 - 12 = i - 24 by omega, ← BitVec.getLsbD_eq_getElem]

/-- `op` of a word that the encoder makes. -/
theorem cwOp_mk (op : BitVec 8) (a b : Nat) : cwOp (mkCw op a b) = op.toNat := by
  unfold cwOp
  congr 1
  ext i h
  simp only [BitVec.getElem_extractLsb', BitVec.getLsbD_eq_getElem (show 24 + i < 32 by omega), getElem_mkCw]
  rw [if_neg (by omega), if_neg (by omega), show 24 + i - 24 = i by omega, BitVec.getLsbD_eq_getElem h]

/-- `a` of a word that the encoder makes. -/
theorem cwA_mk (op : BitVec 8) (a b : Nat) (ha : a < 4096) : cwA (mkCw op a b) = a := by
  unfold cwA
  have : (mkCw op a b).extractLsb' 12 12 = BitVec.ofNat 12 a := by
    ext i h
    simp only [BitVec.getElem_extractLsb', BitVec.getLsbD_eq_getElem (show 12 + i < 32 by omega), getElem_mkCw]
    rw [if_neg (by omega), if_pos (by omega), show 12 + i - 12 = i by omega, ← BitVec.getLsbD_eq_getElem h, BitVec.getLsbD_ofNat]
    simp [h]
  rw [this]; simp; omega

/-- `b` of a word that the encoder makes. -/
theorem cwB_mk (op : BitVec 8) (a b : Nat) (hb : b < 4096) : cwB (mkCw op a b) = b := by
  unfold cwB
  have : (mkCw op a b).extractLsb' 0 12 = BitVec.ofNat 12 b := by
    ext i h
    simp only [BitVec.getElem_extractLsb', BitVec.getLsbD_eq_getElem (show 0 + i < 32 by omega), getElem_mkCw]
    rw [if_pos (by omega), show 0 + i = i by omega, ← BitVec.getLsbD_eq_getElem h, BitVec.getLsbD_ofNat]
    simp [h]
  rw [this]; simp; omega

/-- The immediate of a word that the encoder makes. -/
theorem cwImm_mk (op : BitVec 8) (a : Nat) (v : Byte) : cwImm (mkCw op a v.toNat) = v := by
  unfold cwImm
  ext i h
  simp only [BitVec.getElem_extractLsb', BitVec.getLsbD_eq_getElem (show 0 + i < 32 by omega), getElem_mkCw]
  rw [if_pos (by omega), show 0 + i = i by omega, BitVec.testBit_toNat, BitVec.getLsbD_eq_getElem h]

/-- A word is made from its three fields. -/
theorem mkCw_of_fields (w : BitVec 32) (op : BitVec 8) (a b : Nat) (h : cwOp w = op.toNat) (ha : a = cwA w) (hb : b = cwB w) :
    mkCw op a b = w := by
  have : op = w.extractLsb' 24 8 := by apply BitVec.eq_of_toNat_eq; rw [← h]; rfl
  subst this ha hb
  ext i hi
  rw [getElem_mkCw]
  unfold cwA cwB
  simp only [BitVec.testBit_toNat, BitVec.getLsbD_extractLsb']
  rw [← BitVec.getLsbD_eq_getElem hi]
  by_cases h1 : i < 12
  · simp [h1]
  · by_cases h2 : i < 24
    · simp [h1, h2, show i - 12 < 12 by omega, show 12 + (i - 12) = i by omega]
    · simp [h1, h2, show i - 24 < 8 by omega, show 24 + (i - 24) = i by omega]

/-- `op` as a number. -/
theorem cwOp_eq_div (w : BitVec 32) : cwOp w = w.toNat / 2 ^ 24 := by
  have := w.isLt
  simp only [cwOp, BitVec.extractLsb'_toNat, Nat.shiftRight_eq_div_pow]; omega

/-- `a` as a number. -/
theorem cwA_eq_mod (w : BitVec 32) : cwA w = w.toNat / 2 ^ 12 % 2 ^ 12 := by
  simp only [cwA, BitVec.extractLsb'_toNat, Nat.shiftRight_eq_div_pow]

/-- `b` as a number. -/
theorem cwB_eq_mod (w : BitVec 32) : cwB w = w.toNat % 2 ^ 12 := by
  simp only [cwB, BitVec.extractLsb'_toNat, Nat.shiftRight_eq_div_pow]; simp

theorem cwA_lt (w : BitVec 32) : cwA w < 4096 := (w.extractLsb' 12 12).isLt

theorem cwB_lt (w : BitVec 32) : cwB w < 4096 := (w.extractLsb' 0 12).isLt

/-- A command word whose field `b` is zero, as a number (R61). -/
theorem mkCw_bZero (op : BitVec 8) (a : Nat) (h : a < 4096) :
    mkCw op a 0 = BitVec.ofNat 32 (op.toNat * 2 ^ 24 + 4096 * a) := by
  apply BitVec.eq_of_toNat_eq
  have := op.isLt
  unfold mkCw
  rw [BitVec.toNat_append, BitVec.toNat_append, BitVec.toNat_ofNat, BitVec.toNat_ofNat,
    Nat.mod_eq_of_lt (show a < 2 ^ 12 by omega)]
  have e : op.toNat <<< 12 ||| a = op.toNat * 2 ^ 12 + a := by
    rw [Nat.shiftLeft_eq, Nat.mul_comm, Nat.two_pow_add_eq_or_of_lt (show a < 2 ^ 12 by omega)]
  rw [e]
  simp [Nat.shiftLeft_eq]
  omega

end Sys2Proof.Laws
end

