-- ==== Sys2Proof/Laws/Link.lean ====
section
/-! SUPPORT. What each operation of the channel can do, said once: the fields none of them touches, the invariant each
of them keeps, and how a wait ends. -/

namespace Sys2Proof.Machine

/-! ### `Follows` -/

theorem Link.Follows.refl (l : Link) : l.Follows l := ⟨rfl, rfl, rfl, rfl, rfl, List.prefix_rfl⟩

theorem Link.Follows.trans {a b c : Link} (h : a.Follows b) (k : b.Follows c) : a.Follows c :=
  ⟨k.cfgEn.trans h.cfgEn, k.cfgBaud.trans h.cfgBaud, k.cfgRto.trans h.cfgRto, k.txHealthy.trans h.txHealthy,
    k.envSilent.trans h.envSilent, h.wire.trans k.wire⟩

theorem Link.follows_shift (l : Link) : l.Follows l.shift := by
  unfold Link.shift
  split
  · exact ⟨rfl, rfl, rfl, rfl, rfl, List.prefix_append _ _⟩
  · exact .refl l

theorem Link.follows_latch (v : Byte) (l : Link) : l.Follows (l.latch v) :=
  ⟨rfl, rfl, rfl, rfl, rfl, List.prefix_rfl⟩

theorem Link.follows_done (v : Byte) (l : Link) : l.Follows (l.done v) := by
  unfold Link.done
  split
  · exact .trans (b := { l with tsrBusy := false, tc := l.tc || l.txe })
      ⟨rfl, rfl, rfl, rfl, rfl, List.prefix_rfl⟩ (follows_latch _ _)
  · exact .refl l

theorem Link.follows_rx (v : Byte) (l : Link) : l.Follows (l.rx v) := by
  unfold Link.rx
  split
  · exact follows_latch _ _
  · exact .refl l

theorem Link.follows_apply (e : EnvEvent) (l : Link) : l.Follows (l.apply e) := by
  cases e with
  | shift => exact follows_shift l
  | done v => exact follows_done v l
  | rx v => exact follows_rx v l
  | rto => simp only [Link.apply, Link.raiseRto]; split <;> exact ⟨rfl, rfl, rfl, rfl, rfl, List.prefix_rfl⟩
  | err => simp only [Link.apply, Link.raiseErr]; split <;> exact ⟨rfl, rfl, rfl, rfl, rfl, List.prefix_rfl⟩
  | tick => exact ⟨rfl, rfl, rfl, rfl, rfl, List.prefix_rfl⟩

theorem Link.follows_txStep (l : Link) : l.Follows l.txStep := by
  unfold Link.txStep
  split
  · exact .trans (b := { l with draws := l.draws + 1 }) ⟨rfl, rfl, rfl, rfl, rfl, List.prefix_rfl⟩ (follows_done _ _)
  · exact follows_shift l

/-! ### What a wait keeps -/

theorem Link.drain_preserves {P : Link → Prop} (tx : ∀ l, P l → P l.txStep) (cond : Link → Bool) (k : Nat) {l : Link}
    (h : P l) : P (l.drain cond k) := by
  induction k generalizing l with
  | zero => exact h
  | succ k ih =>
    unfold Link.drain
    split
    · exact h
    · exact ih (tx l h)

theorem Link.overtake_preserves {P : Link → Prop} (ev : ∀ e l, P l → P (l.apply e)) (cond : Link → Bool) (n : Nat)
    (is : List Input) {l : Link} (h : P l) : P (l.overtake cond n is).2.2 := by
  induction is generalizing n l with
  | nil => exact h
  | cons i is ih =>
    unfold Link.overtake
    split
    · exact h
    · split
      · exact h
      · exact ih _ (ev _ l h)

/-- What every event, every step of the transmitter, the passing of time and a change of the agenda keep, a wait
keeps (R9). -/
theorem Link.waitUntil_preserves {P : Link → Prop} (ev : ∀ e l, P l → P (l.apply e)) (tx : ∀ l, P l → P l.txStep)
    (set : ∀ l is n, P l → P { l with inputs := is, ticks := n }) (cond : Link → Bool) (n : Nat) {l : Link} (h : P l) :
    P (l.waitUntil cond n).2 := by
  have stop : ∀ n is (l : Link), P l → P (l.stopWait cond n is).2 := by
    intro n is l h
    unfold Link.stopWait
    split
    · exact set l is l.ticks h
    · split
      · exact set l is l.ticks h
      · exact set l is (l.ticks + n) h
  have events : ∀ is n (l : Link), P l → P (Link.waitEvents cond n is l).2 := by
    intro is
    induction is with
    | nil => exact fun n l h => stop n [] l h
    | cons i is ih =>
      intro n l h
      unfold Link.waitEvents
      split
      · exact stop _ _ l h
      · split
        · exact stop _ _ l h
        · exact ih _ _ (ev _ l h)
  unfold Link.waitUntil
  split
  · exact events _ _ _ (drain_preserves tx cond 3 (overtake_preserves ev cond n _ h))
  · exact events _ _ l h

theorem Link.follows_waitUntil (cond : Link → Bool) (n : Nat) (l : Link) : l.Follows (l.waitUntil cond n).2 :=
  waitUntil_preserves (fun e _ h => h.trans (follows_apply e _)) (fun _ h => h.trans (follows_txStep _))
    (fun _ _ _ h => h.trans ⟨rfl, rfl, rfl, rfl, rfl, List.prefix_rfl⟩) cond n (.refl l)

theorem Link.follows_sendb (p : Params) (v : Byte) (l : Link) : l.Follows (l.sendb p v) := by
  have h := follows_waitUntil Link.canSend p.txWaitTicks l
  unfold Link.sendb
  split <;> rename_i heq <;> rw [heq] at h
  · exact h.trans ⟨rfl, rfl, rfl, rfl, rfl, List.prefix_rfl⟩
  · exact h

theorem Link.follows_flush (p : Params) (l : Link) : l.Follows (l.flush p) :=
  (follows_waitUntil Link.allSent p.tcWaitTicks l).trans ⟨rfl, rfl, rfl, rfl, rfl, List.prefix_append _ _⟩

theorem Link.follows_hearBabble (l : Link) : l.Follows l.hearBabble :=
  .trans (b := { l with draws := l.draws + 1 }) ⟨rfl, rfl, rfl, rfl, rfl, List.prefix_rfl⟩ (follows_rx _ _)

theorem Link.follows_take (o : Option Sym7) (l : Link) : l.Follows (l.take o).2 := by
  cases o <;> exact ⟨rfl, rfl, rfl, rfl, rfl, List.prefix_append _ _⟩

theorem Link.follows_takeOrFail (l : Link) : l.Follows l.takeOrFail.2 := follows_take _ l

theorem Link.follows_takeUnclean (l : Link) : l.Follows l.takeUnclean.2 :=
  .trans (b := { l with draws := l.draws + 1 }) ⟨rfl, rfl, rfl, rfl, rfl, List.prefix_rfl⟩ (follows_take _ _)

theorem Link.follows_readb (p : Params) (l : Link) : l.Follows (l.readb p).2 := by
  have h := follows_waitUntil Link.canRead p.rxWaitTicks l
  unfold Link.readb Link.readWait
  simp only
  generalize l.waitUntil Link.canRead p.rxWaitTicks = w at h ⊢
  have h2 : l.Follows (if Link.babbles w then w.2.hearBabble else w.2) := by
    split
    · exact h.trans (follows_hearBabble _)
    · exact h
  generalize (if Link.babbles w then w.2.hearBabble else w.2) = k at h2 ⊢
  split
  · exact h2.trans (follows_takeOrFail k)
  · exact h2.trans (follows_takeUnclean k)

theorem Link.follows_sendSyms (p : Params) (syms : List Byte) (l : Link) : l.Follows (l.sendSyms p syms) := by
  unfold Link.sendSyms
  induction syms generalizing l with
  | nil => exact .refl l
  | cons v t ih => exact (follows_sendb p v l).trans (ih _)

/-- One turn of the loop of `COLLECT` (R104), without the binders of its definition. -/
theorem Link.readLoop_succ (p : Params) (n : Nat) (acc : List Sym7) (l : Link) :
    l.readLoop p (n + 1) acc =
      if Link.babbles (l.readWait p) = true then none
      else if (l.readWait p).2.takeOrFail.1.fail = true then some (acc, (l.readWait p).2.takeOrFail.2)
      else (l.readWait p).2.takeOrFail.2.readLoop p n
        (acc ++ [(l.readWait p).2.takeOrFail.1.val.setWidth 7]) := rfl

theorem Link.follows_readLoop (p : Params) (n : Nat) (acc : List Sym7) (l : Link) {r : List Sym7 × Link}
    (h : l.readLoop p n acc = some r) : l.Follows r.2 := by
  induction n generalizing acc l with
  | zero => cases h
  | succ n ih =>
    rw [readLoop_succ] at h
    have hw : l.Follows (l.readWait p).2 := follows_waitUntil Link.canRead p.rxWaitTicks l
    by_cases hb : Link.babbles (l.readWait p) = true
    · rw [if_pos hb] at h; cases h
    · rw [if_neg hb] at h
      by_cases hf : (l.readWait p).2.takeOrFail.1.fail = true
      · rw [if_pos hf] at h; cases h; exact hw.trans (follows_takeOrFail _)
      · rw [if_neg hf] at h; exact (hw.trans (follows_takeOrFail _)).trans (ih _ _ h)

/-- One turn of the loop when its results are drawn, without the binders of its definition. -/
theorem Link.readDrawn_cons (p : Params) (v : Sym7) (t : List Sym7) (l : Link) :
    l.readDrawn p (v :: t) =
      if Link.babbles (l.readWait p) = true then none
      else ((l.readWait p).2.take (some v)).2.readDrawn p t := rfl

theorem Link.readDrawn_nil (p : Params) (l : Link) :
    l.readDrawn p [] = if Link.babbles (l.readWait p) = true then none else some ((l.readWait p).2.take none).2 := rfl

/-- What a wait keeps and the taking of a result keeps, the loop with drawn results keeps. -/
theorem Link.readDrawn_preserves {P : Link → Prop} (p : Params) (wait : ∀ l, P l → P (l.readWait p).2)
    (take : ∀ o l, P l → P (l.take o).2) (r : List Sym7) {l k : Link} (h : P l) (hr : l.readDrawn p r = some k) :
    P k := by
  induction r generalizing l with
  | nil =>
    rw [readDrawn_nil] at hr
    split at hr
    · cases hr
    · cases hr; exact take _ _ (wait l h)
  | cons v t ih =>
    rw [readDrawn_cons] at hr
    split at hr
    · cases hr
    · exact ih (take _ _ (wait l h)) hr

/-- The two ways to a response: the loop on a clean path, the loop with a drawn burst on one that is not. -/
theorem Link.response_cases (p : Params) {l : Link} {r : List Sym7 × Link} (h : l.response p = some r) :
    (l.rxClean = true ∧ l.readLoop p (l.inputs.length + 3) [] = some r) ∨
      (l.rxClean = false ∧ r.1 = Config.freeBurst l.draws ∧
        Link.readDrawn p r.1 { l with draws := l.draws + 1 } = some r.2) := by
  unfold Link.response at h
  cases hc : l.rxClean
  · rw [hc, if_neg (by simp)] at h
    unfold Link.uncleanResponse at h
    simp only [Option.map_eq_some_iff] at h
    obtain ⟨k, hk, rfl⟩ := h
    exact .inr ⟨rfl, rfl, by simpa [← hc] using hk⟩
  · rw [hc, if_pos rfl] at h
    exact .inl ⟨rfl, h⟩

theorem Link.follows_response (p : Params) (l : Link) {r : List Sym7 × Link} (h : l.response p = some r) :
    l.Follows r.2 := by
  rcases response_cases p h with ⟨-, h⟩ | ⟨-, -, h⟩
  · exact follows_readLoop p _ _ l h
  · exact readDrawn_preserves (P := l.Follows) p (fun k hk => hk.trans (follows_waitUntil _ _ k))
      (fun o k hk => hk.trans (follows_take o k)) r.1 (l := { l with draws := l.draws + 1 }) ⟨rfl, rfl, rfl, rfl, rfl, List.prefix_rfl⟩ h

theorem Link.follows_askForResponse (p : Params) (l : Link) : l.Follows (l.askForResponse p) :=
  (follows_sendSyms p _ l).trans (follows_flush p _)

/-! ### The fields the receiver does not touch -/

@[simp] theorem Link.tdr_latch (v : Byte) (l : Link) : (l.latch v).tdr = l.tdr := rfl

@[simp] theorem Link.txe_latch (v : Byte) (l : Link) : (l.latch v).txe = l.txe := rfl

@[simp] theorem Link.tsr_latch (v : Byte) (l : Link) : (l.latch v).tsr = l.tsr := rfl

@[simp] theorem Link.tsrBusy_latch (v : Byte) (l : Link) : (l.latch v).tsrBusy = l.tsrBusy := rfl

@[simp] theorem Link.tc_latch (v : Byte) (l : Link) : (l.latch v).tc = l.tc := rfl

@[simp] theorem Link.rto_latch (v : Byte) (l : Link) : (l.latch v).rto = l.rto := rfl

@[simp] theorem Link.rxClean_latch (v : Byte) (l : Link) : (l.latch v).rxClean = l.rxClean := rfl

@[simp] theorem Link.wire_latch (v : Byte) (l : Link) : (l.latch v).wire = l.wire := rfl

@[simp] theorem Link.ticks_latch (v : Byte) (l : Link) : (l.latch v).ticks = l.ticks := rfl

@[simp] theorem Link.inputs_latch (v : Byte) (l : Link) : (l.latch v).inputs = l.inputs := rfl

@[simp] theorem Link.cfgEn_latch (v : Byte) (l : Link) : (l.latch v).cfgEn = l.cfgEn := rfl

@[simp] theorem Link.txHealthy_latch (v : Byte) (l : Link) : (l.latch v).txHealthy = l.txHealthy := rfl

@[simp] theorem Link.envSilent_latch (v : Byte) (l : Link) : (l.latch v).envSilent = l.envSilent := rfl

@[simp] theorem Link.rxne_latch (v : Byte) (l : Link) : (l.latch v).rxne = true := rfl

/-! ### The receive path left open -/

@[simp] theorem Link.tdr_blurReceive (l : Link) : l.blurReceive.tdr = l.tdr := rfl

@[simp] theorem Link.txe_blurReceive (l : Link) : l.blurReceive.txe = l.txe := rfl

@[simp] theorem Link.tsr_blurReceive (l : Link) : l.blurReceive.tsr = l.tsr := rfl

@[simp] theorem Link.tsrBusy_blurReceive (l : Link) : l.blurReceive.tsrBusy = l.tsrBusy := rfl

@[simp] theorem Link.tc_blurReceive (l : Link) : l.blurReceive.tc = l.tc := rfl

@[simp] theorem Link.rxClean_blurReceive (l : Link) : l.blurReceive.rxClean = l.rxClean := rfl

@[simp] theorem Link.wire_blurReceive (l : Link) : l.blurReceive.wire = l.wire := rfl

@[simp] theorem Link.ticks_blurReceive (l : Link) : l.blurReceive.ticks = l.ticks := rfl

@[simp] theorem Link.inputs_blurReceive (l : Link) : l.blurReceive.inputs = l.inputs := rfl

@[simp] theorem Link.cfgEn_blurReceive (l : Link) : l.blurReceive.cfgEn = l.cfgEn := rfl

@[simp] theorem Link.cfgBaud_blurReceive (l : Link) : l.blurReceive.cfgBaud = l.cfgBaud := rfl

@[simp] theorem Link.cfgRto_blurReceive (l : Link) : l.blurReceive.cfgRto = l.cfgRto := rfl

@[simp] theorem Link.txHealthy_blurReceive (l : Link) : l.blurReceive.txHealthy = l.txHealthy := rfl

@[simp] theorem Link.envSilent_blurReceive (l : Link) : l.blurReceive.envSilent = l.envSilent := rfl

theorem Link.latch_free {l : Link} (v : Byte) (h : l.rxne = false) : l.latch v = { l with rdr := v, rxne := true } := by
  simp [Link.latch, h]

/-! ### How a wait ends -/

/-- A wait is over with success exactly when its condition holds in the state it leaves. -/
theorem Link.waitUntil_held_iff (cond : Link → Bool) (hc : ∀ l is, cond { l with inputs := is } = cond l)
    (hc' : ∀ l is n, cond { l with inputs := is, ticks := n } = cond l) (n : Nat) (l : Link) :
    (l.waitUntil cond n).1 = .held ↔ cond (l.waitUntil cond n).2 = true := by
  have stop : ∀ n is (l : Link), (l.stopWait cond n is).1 = .held ↔ cond (l.stopWait cond n is).2 = true := by
    intro n is l
    unfold Link.stopWait
    cases h : cond l
    · by_cases hn : n = 0 <;> simp [hn, hc, hc', h]
    · simp [hc, h]
  have events : ∀ is n (l : Link),
      (Link.waitEvents cond n is l).1 = .held ↔ cond (Link.waitEvents cond n is l).2 = true := by
    intro is
    induction is with
    | nil => intro n l; exact stop _ _ _
    | cons i is ih =>
      intro n l
      unfold Link.waitEvents
      split
      · exact stop _ _ _
      · split
        · exact stop _ _ _
        · exact ih _ _
  unfold Link.waitUntil
  split <;> exact events _ _ _

theorem Link.waitUntil_allSent (n : Nat) (l : Link) :
    (l.waitUntil Link.allSent n).1 = .held ↔ (l.waitUntil Link.allSent n).2.tc = true :=
  waitUntil_held_iff _ (fun _ _ => rfl) (fun _ _ _ => rfl) n l

theorem Link.waitUntil_canSend (n : Nat) (l : Link) :
    (l.waitUntil Link.canSend n).1 = .held ↔ (l.waitUntil Link.canSend n).2.txe = true :=
  waitUntil_held_iff _ (fun _ _ => rfl) (fun _ _ _ => rfl) n l

theorem Link.waitUntil_canRead (n : Nat) (l : Link) :
    (l.waitUntil Link.canRead n).1 = .held ↔ (l.waitUntil Link.canRead n).2.canRead = true :=
  waitUntil_held_iff _ (fun _ _ => rfl) (fun _ _ _ => rfl) n l

/-- The agenda is left where the condition came to hold. -/
theorem Link.waitEvents_of_holds {cond : Link → Bool} {l : Link} (h : cond l = true) (n : Nat) (is : List Input) :
    Link.waitEvents cond n is l = (.held, { l with inputs := is }) := by
  cases is with
  | nil => simp [Link.waitEvents, Link.stopWait, h]
  | cons i is => unfold Link.waitEvents; split <;> simp [Link.stopWait, h]

theorem Link.overtake_of_holds {cond : Link → Bool} {l : Link} (h : cond l = true) (n : Nat) (is : List Input) :
    Link.overtake cond n is l = (n, is, l) := by
  cases is with
  | nil => rfl
  | cons i is => unfold Link.overtake; split <;> simp [h]

theorem Link.drain_of_holds {cond : Link → Bool} {l : Link} (h : cond l = true) (k : Nat) : l.drain cond k = l := by
  cases k <;> simp [Link.drain, h]

/-- A wait whose condition holds on entry takes nothing from the agenda (R9). -/
theorem Link.waitUntil_of_holds {cond : Link → Bool} {l : Link} (h : cond l = true) (n : Nat) :
    l.waitUntil cond n = (.held, l) := by
  unfold Link.waitUntil
  split
  · rw [overtake_of_holds h]
    simp only [drain_of_holds h, waitEvents_of_holds h]
  · exact waitEvents_of_holds h _ _

theorem onlyAmidTaken.refl (is : List Input) : onlyAmidTaken is is := ⟨[], rfl⟩

theorem onlyAmidTaken.trans {a b c : List Input} (h : onlyAmidTaken a b) (k : onlyAmidTaken b c) :
    onlyAmidTaken a c := by
  obtain ⟨es, rfl⟩ := h
  obtain ⟨fs, rfl⟩ := k
  exact ⟨es ++ fs, by simp⟩

/-- An agenda that does not begin with such an event is left as it is. -/
theorem onlyAmidTaken.eq {a b : List Input} (h : onlyAmidTaken a b) (hn : ∀ e rest, a ≠ .amid e :: rest) : b = a := by
  obtain ⟨es, h⟩ := h
  cases es with
  | nil => exact h.symm
  | cons e es => exact absurd h (hn e _)

/-- What overtakes a healthy transmitter is a run of `amid` events at the head of the agenda (log 2). -/
theorem Link.overtake_inputs (cond : Link → Bool) (n : Nat) (is : List Input) (l : Link) :
    onlyAmidTaken is (Link.overtake cond n is l).2.1 := by
  induction is generalizing n l with
  | nil => exact ⟨[], rfl⟩
  | cons i is ih =>
    unfold Link.overtake
    split
    · exact ⟨[], rfl⟩
    · rename_i e he
      split
      · exact ⟨[], rfl⟩
      · obtain ⟨es, h⟩ := ih (budgetAfter n e) (l.apply e)
        have : i = .amid e := by
          cases i with
          | amid e' => exact congrArg _ (Option.some.inj he)
          | _ => cases he
        exact ⟨e :: es, by rw [this]; exact congrArg _ h⟩

/-! ### The invariant -/

theorem Link.inv_latch {p : Params} {l : Link} (v : Byte) (h : l.Inv p) (he : l.cfgEn = true) : (l.latch v).Inv p :=
  ⟨h.1, h.2, by simp [he], h.4⟩

theorem Link.inv_shift {p : Params} {l : Link} (h : l.Inv p) : l.shift.Inv p := by
  obtain ⟨h1, h2, h3, h4⟩ := h
  unfold Link.shift
  split
  · rename_i hs
    simp only [Bool.and_eq_true, Bool.not_eq_true'] at hs
    refine ⟨by simp [h1, hs], ?_, ?_, h4⟩
    · intro hc; have := h2 hc; simp [h1, hs] at this
    · intro he; have := (h3 he).1; simp [hs.1] at this
  · exact ⟨h1, h2, h3, h4⟩

theorem Link.inv_done {p : Params} {l : Link} (v : Byte) (h : l.Inv p) : (l.done v).Inv p := by
  have h' := h
  obtain ⟨h1, h2, h3, h4⟩ := h
  unfold Link.done
  split
  · rename_i ht
    have he : l.cfgEn = true := by
      cases hc : l.cfgEn
      · have := (h3 hc).2.1; simp [ht] at this
      · rfl
    apply inv_latch
    · refine ⟨by simp [h1, ht], ?_, by simp [he], h4⟩
      intro hc; have := h2 hc; simp [h1, ht] at this
    · exact he
  · exact h'

theorem Link.inv_rx {p : Params} {l : Link} (v : Byte) (h : l.Inv p) : (l.rx v).Inv p := by
  unfold Link.rx
  split
  · rename_i he; exact inv_latch v h he
  · exact h

theorem Link.inv_apply {p : Params} {l : Link} (e : EnvEvent) (h : l.Inv p) : (l.apply e).Inv p := by
  have h' := h
  obtain ⟨h1, h2, h3, h4⟩ := h
  cases e with
  | shift => exact inv_shift h'
  | done v => exact inv_done v h'
  | rx v => exact inv_rx v h'
  | rto =>
    simp only [Link.apply, Link.raiseRto]
    split
    · rename_i he; exact ⟨h1, h2, by simp [he], h4⟩
    · exact h'
  | err =>
    simp only [Link.apply, Link.raiseErr]
    split
    · rename_i he; exact ⟨h1, h2, by simp [he], h4⟩
    · exact h'
  | tick => exact ⟨h1, h2, h3, h4⟩

theorem Link.inv_txStep {p : Params} {l : Link} (h : l.Inv p) : l.txStep.Inv p := by
  unfold Link.txStep
  split
  · exact inv_done _ ⟨h.1, h.2, h.3, h.4⟩
  · exact inv_shift h

theorem Link.inv_waitUntil {p : Params} {l : Link} (cond : Link → Bool) (n : Nat) (h : l.Inv p) :
    (l.waitUntil cond n).2.Inv p :=
  waitUntil_preserves (fun e _ h => inv_apply e h) (fun _ h => inv_txStep h) (fun _ _ _ h => ⟨h.1, h.2, h.3, h.4⟩)
    cond n h

theorem Link.inv_sendb {p : Params} {l : Link} (v : Byte) (h : l.Inv p) (he : l.cfgEn = true) : (l.sendb p v).Inv p := by
  have hw := inv_waitUntil Link.canSend p.txWaitTicks h
  have hf := (follows_waitUntil Link.canSend p.txWaitTicks l).cfgEn
  unfold Link.sendb
  split <;> rename_i heq <;> rw [heq] at hw hf
  · simp only at hf
    exact ⟨by simp, by simp, by simp [hf, he], hw.4⟩
  · exact hw

theorem Link.inv_flush {p : Params} {l : Link} (h : l.Inv p) (he : l.cfgEn = true) : (l.flush p).Inv p := by
  have hw := inv_waitUntil Link.allSent p.tcWaitTicks h
  have hf := (follows_waitUntil Link.allSent p.tcWaitTicks l).cfgEn
  have hi := waitUntil_allSent p.tcWaitTicks l
  unfold Link.flush
  refine ⟨hw.1, ?_, by simp [hf, he], hw.4⟩
  simpa using hi.1

theorem Link.inv_take {p : Params} {l : Link} (o : Option Sym7) (h : l.Inv p) (he : l.cfgEn = true) :
    (l.take o).2.Inv p := by
  cases o <;> exact ⟨h.1, h.2, by simp [Link.take, he], h.4⟩

theorem Link.inv_takeOrFail {p : Params} {l : Link} (h : l.Inv p) (he : l.cfgEn = true) : l.takeOrFail.2.Inv p :=
  inv_take _ h he

theorem Link.inv_takeUnclean {p : Params} {l : Link} (h : l.Inv p) (he : l.cfgEn = true) : l.takeUnclean.2.Inv p :=
  inv_take _ (l := { l with draws := l.draws + 1 }) ⟨h.1, h.2, h.3, h.4⟩ he

theorem Link.inv_readb {p : Params} {l : Link} (h : l.Inv p) (he : l.cfgEn = true) : (l.readb p).2.Inv p := by
  have hw := inv_waitUntil Link.canRead p.rxWaitTicks h
  have hf := (follows_waitUntil Link.canRead p.rxWaitTicks l).cfgEn
  unfold Link.readb Link.readWait
  simp only
  generalize l.waitUntil Link.canRead p.rxWaitTicks = w at hw hf ⊢
  have h2 : (if Link.babbles w then w.2.hearBabble else w.2).Inv p ∧
      (if Link.babbles w then w.2.hearBabble else w.2).cfgEn = true := by
    split
    · exact ⟨inv_rx _ ⟨hw.1, hw.2, hw.3, hw.4⟩, by rw [(follows_hearBabble w.2).cfgEn, hf, he]⟩
    · exact ⟨hw, by rw [hf, he]⟩
  generalize (if Link.babbles w then w.2.hearBabble else w.2) = k at h2 ⊢
  split
  · exact inv_takeOrFail h2.1 h2.2
  · exact inv_takeUnclean h2.1 h2.2

theorem Link.inv_sendSyms {p : Params} {l : Link} (syms : List Byte) (h : l.Inv p) (he : l.cfgEn = true) :
    (l.sendSyms p syms).Inv p := by
  unfold Link.sendSyms
  induction syms generalizing l with
  | nil => exact h
  | cons v t ih => exact ih (inv_sendb v h he) ((follows_sendb p v l).cfgEn.trans he)

theorem Link.inv_readLoop {p : Params} {l : Link} (n : Nat) (acc : List Sym7) {r : List Sym7 × Link}
    (h : l.Inv p) (he : l.cfgEn = true) (hr : l.readLoop p n acc = some r) : r.2.Inv p := by
  induction n generalizing acc l with
  | zero => cases hr
  | succ n ih =>
    have hw : (l.readWait p).2.Inv p := inv_waitUntil Link.canRead p.rxWaitTicks h
    have hf : (l.readWait p).2.cfgEn = true := (follows_waitUntil Link.canRead p.rxWaitTicks l).cfgEn.trans he
    rw [readLoop_succ] at hr
    by_cases hb : Link.babbles (l.readWait p) = true
    · rw [if_pos hb] at hr; cases hr
    · rw [if_neg hb] at hr
      by_cases hx : (l.readWait p).2.takeOrFail.1.fail = true
      · rw [if_pos hx] at hr; cases hr; exact inv_takeOrFail hw hf
      · rw [if_neg hx] at hr
        exact ih _ (inv_takeOrFail hw hf) ((follows_takeOrFail _).cfgEn.trans hf) hr

theorem Link.inv_response {p : Params} {l : Link} {r : List Sym7 × Link} (h : l.Inv p) (he : l.cfgEn = true)
    (hr : l.response p = some r) : r.2.Inv p := by
  rcases response_cases p hr with ⟨-, hr⟩ | ⟨-, -, hr⟩
  · exact inv_readLoop _ _ h he hr
  · exact (readDrawn_preserves (P := fun k => k.Inv p ∧ k.cfgEn = true) p
      (fun k hk => ⟨inv_waitUntil _ _ hk.1, (follows_waitUntil _ _ k).cfgEn.trans hk.2⟩)
      (fun o k hk => ⟨inv_take o hk.1 hk.2, (follows_take o k).cfgEn.trans hk.2⟩) r.1
      (l := { l with draws := l.draws + 1 }) ⟨⟨h.1, h.2, h.3, h.4⟩, he⟩ hr).1

theorem Link.inv_askForResponse {p : Params} {l : Link} (h : l.Inv p) (he : l.cfgEn = true) :
    (l.askForResponse p).Inv p :=
  inv_flush (inv_sendSyms _ h he) ((follows_sendSyms p _ l).cfgEn.trans he)

/-! ### A healthy transmitter -/

theorem Link.sent_of_txe {l : Link} (h : l.txe = true) : l.sent = l.wire := by simp [Link.sent, h]

theorem Link.sent_apply (e : EnvEvent) (l : Link) : (l.apply e).sent = l.sent := by
  cases e with
  | shift =>
    simp only [Link.apply, Link.shift]
    split
    · rename_i h; simp only [Bool.and_eq_true, Bool.not_eq_true'] at h; simp [Link.sent, h]
    · rfl
  | done v => simp only [Link.apply, Link.done]; split <;> rfl
  | rx v => simp only [Link.apply, Link.rx]; split <;> rfl
  | rto => simp only [Link.apply, Link.raiseRto]; split <;> rfl
  | err => simp only [Link.apply, Link.raiseErr]; split <;> rfl
  | tick => rfl

theorem Link.sent_txStep (l : Link) : l.txStep.sent = l.sent := by
  unfold Link.txStep
  split
  · exact sent_apply (.done _) _
  · exact sent_apply .shift l

/-- A wait neither loses nor adds a symbol that has been handed over (R51). -/
theorem Link.sent_waitUntil (cond : Link → Bool) (n : Nat) (l : Link) : (l.waitUntil cond n).2.sent = l.sent :=
  waitUntil_preserves (P := fun k => k.sent = l.sent) (fun e k h => (sent_apply e k).trans h)
    (fun k h => (sent_txStep k).trans h) (fun _ _ _ h => h) cond n rfl

/-- Under TxHealthy a wait whose condition the transmitter brings about succeeds, and takes nothing from the agenda
but events that overtake the transmitter (R76, R84, log 2). -/
theorem Link.waitUntil_drained {cond : Link → Bool} {l : Link} (n : Nat) (hh : l.txHealthy = true)
    (hc : cond ((l.overtake cond n l.inputs).2.2.drain cond 3) = true) :
    (l.waitUntil cond n).1 = .held ∧ onlyAmidTaken l.inputs (l.waitUntil cond n).2.inputs := by
  unfold Link.waitUntil
  rw [if_pos hh]
  simp only [waitEvents_of_holds hc, true_and]
  exact overtake_inputs cond n l.inputs l

/-- Three steps of the transmitter empty `TDR`. -/
theorem Link.canSend_drain (l : Link) : Link.canSend (l.drain Link.canSend 3) = true := by
  cases ht : l.txe <;> cases hb : l.tsrBusy <;>
    simp [Link.drain, Link.canSend, Link.sending, Link.txStep, Link.done, Link.shift, ht, hb]

/-- Three steps of the transmitter empty `TDR` and `TSR`. -/
theorem Link.allSent_drain {l : Link} (hc : l.tc = (l.txe && !l.tsrBusy)) :
    Link.allSent (l.drain Link.allSent 3) = true := by
  cases ht : l.txe <;> cases hb : l.tsrBusy <;> rw [ht, hb] at hc <;>
    simp [Link.drain, Link.allSent, Link.sending, Link.txStep, Link.done, Link.shift, ht, hb, hc]

/-- Under TxHealthy the wait of `SENDB` succeeds; the shifter has taken what was in `TDR` (R76). -/
theorem Link.waitUntil_canSend_healthy {l : Link} (n : Nat) (hh : l.txHealthy = true) :
    (l.waitUntil Link.canSend n).1 = .held ∧ (l.waitUntil Link.canSend n).2.txe = true ∧
      (l.waitUntil Link.canSend n).2.wire = l.sent ∧
      onlyAmidTaken l.inputs (l.waitUntil Link.canSend n).2.inputs := by
  obtain ⟨h1, h2⟩ := waitUntil_drained (cond := Link.canSend) n hh (canSend_drain _)
  have h3 := (waitUntil_canSend n l).1 h1
  exact ⟨h1, h3, (sent_of_txe h3).symm.trans (sent_waitUntil _ _ _), h2⟩

/-- Under TxHealthy the wait of `FLUSH` succeeds, and everything handed over is on the wire (R84). -/
theorem Link.waitUntil_allSent_healthy {p : Params} {l : Link} (n : Nat) (hh : l.txHealthy = true) (hi : l.Inv p) :
    (l.waitUntil Link.allSent n).1 = .held ∧ (l.waitUntil Link.allSent n).2.tc = true ∧
      (l.waitUntil Link.allSent n).2.wire = l.sent ∧
      onlyAmidTaken l.inputs (l.waitUntil Link.allSent n).2.inputs := by
  obtain ⟨h1, h2⟩ := waitUntil_drained (cond := Link.allSent) n hh 
    (allSent_drain (overtake_preserves (fun e _ h => inv_apply e h) _ _ _ hi).tcMeans)
  have h3 := (waitUntil_allSent n l).1 h1
  have h4 := (inv_waitUntil Link.allSent n hi).tcMeans
  rw [h3] at h4
  exact ⟨h1, h3, (sent_of_txe (Bool.and_eq_true_iff.1 h4.symm).1).symm.trans (sent_waitUntil _ _ _), h2⟩

/-- `SENDB` under TxHealthy hands its symbol over behind the ones before it (R76). -/
theorem Link.sendb_healthy (p : Params) (v : Byte) {l : Link} (hh : l.txHealthy = true) :
    (l.sendb p v).sent = l.sent ++ [.tx v] ∧
      onlyAmidTaken l.inputs (l.sendb p v).inputs ∧ (l.sendb p v).rxClean = false := by
  obtain ⟨h1, h2, h3, h4⟩ := waitUntil_canSend_healthy p.txWaitTicks hh
  unfold Link.sendb
  split <;> rename_i heq <;> rw [heq] at h1 h2 h3 h4
  · exact ⟨by simp only at h3; simp [Link.sent, h3], h4, rfl⟩
  · rename_i hn; exact absurd h1 (by simpa using hn)

theorem Link.sendSyms_healthy (p : Params) (syms : List Byte) {l : Link} (hh : l.txHealthy = true) :
    (l.sendSyms p syms).sent = l.sent ++ syms.map .tx ∧
      onlyAmidTaken l.inputs (l.sendSyms p syms).inputs := by
  unfold Link.sendSyms
  induction syms generalizing l with
  | nil => exact ⟨by simp, .refl _⟩
  | cons v t ih =>
    obtain ⟨h1, h2, -⟩ := sendb_healthy p v hh
    obtain ⟨h3, h4⟩ := ih ((follows_sendb p v l).txHealthy.trans hh)
    exact ⟨by simp [h3, h1], h2.trans h4⟩

theorem Link.sendSyms_append (p : Params) (a b : List Byte) (l : Link) :
    l.sendSyms p (a ++ b) = (l.sendSyms p a).sendSyms p b := by simp [Link.sendSyms]

/-- After a symbol has been handed over the receive path is not clean (R78). -/
theorem Link.rxClean_sendSyms_healthy (p : Params) (a : List Byte) {l : Link} (hh : l.txHealthy = true) (ha : a ≠ []) :
    (l.sendSyms p a).rxClean = false := by
  obtain ⟨t, x, rfl⟩ : ∃ t x, a = t ++ [x] :=
    ⟨a.dropLast, a.getLast ha, (List.dropLast_append_getLast ha).symm⟩
  rw [sendSyms_append]
  exact (sendb_healthy p x ((follows_sendSyms p t l).txHealthy.trans hh)).2.2

/-- `FLUSH` under TxHealthy (R84). -/
theorem Link.flush_healthy (p : Params) {l : Link} (hh : l.txHealthy = true) (hi : l.Inv p) :
    (l.flush p).wire = l.sent ++ [.flushed] ∧ (l.flush p).rxClean = true ∧ (l.flush p).tc = true ∧
      onlyAmidTaken l.inputs (l.flush p).inputs := by
  obtain ⟨h1, h2, h3, h4⟩ := waitUntil_allSent_healthy p.tcWaitTicks hh hi
  exact ⟨by simp [Link.flush, h3], by simp [Link.flush, h1], h2, h4⟩

/-- An event does not begin a transmission. -/
theorem Link.sending_apply (e : EnvEvent) {l : Link} (hs : l.sending = false) : (l.apply e).sending = false := by
  have h : l.tsrBusy = false ∧ l.txe = true := by simpa [Link.sending] using hs
  cases e with
  | shift => simpa [Link.apply, Link.shift, h] using hs
  | done v => simpa [Link.apply, Link.done, h] using hs
  | rx v => simp only [Link.apply, Link.rx]; split <;> simp [Link.sending, h]
  | rto => simp only [Link.apply, Link.raiseRto]; split <;> exact hs
  | err => simp only [Link.apply, Link.raiseErr]; split <;> exact hs
  | tick => exact hs

theorem Link.drain_not_sending {l : Link} (cond : Link → Bool) (k : Nat) (hs : l.sending = false) :
    l.drain cond k = l := by
  cases k <;> simp [Link.drain, hs]

/-- With nothing to send, a wait is the events of the agenda. -/
theorem Link.waitUntil_not_sending {l : Link} (cond : Link → Bool) (n : Nat) (hs : l.sending = false) :
    l.waitUntil cond n = Link.waitEvents cond n l.inputs l := by
  have key : ∀ is n (l : Link), l.sending = false →
      Link.waitEvents cond (l.overtake cond n is).1 (l.overtake cond n is).2.1
        ((l.overtake cond n is).2.2.drain cond 3) = Link.waitEvents cond n is l := by
    intro is
    induction is with
    | nil => intro n l hs; rw [Link.overtake, drain_not_sending cond 3 hs]
    | cons i is ih =>
      intro n l hs
      unfold Link.overtake
      split
      · rw [drain_not_sending cond 3 hs]
      · rename_i e he
        have hi : envEventOf i = some e := by cases i <;> simp_all [amidEventOf, envEventOf]
        split
        · rw [drain_not_sending cond 3 hs]
        · rename_i hc
          rw [ih _ _ (sending_apply e hs), Link.waitEvents, hi]
          simp only [if_neg hc]
  unfold Link.waitUntil
  split
  · exact key _ _ _ hs
  · rfl

/-- A wait with no event before the host's next input, and a transmitter that does not move: the budget passes (R9,
log 4). -/
theorem Link.waitUntil_dry {l : Link} (cond : Link → Bool) (n : Nat) (hs : l.txHealthy = false ∨ l.sending = false)
    (hc : cond l = false) (hi : hostNext l.inputs = true) :
    l.waitUntil cond n = (if n = 0 then .expired else .ranDry, { l with ticks := l.ticks + n }) := by
  have events : ∀ js, hostNext js = true → Link.waitEvents cond n js l = l.stopWait cond n js := by
    intro js hj
    cases js with
    | nil => rfl
    | cons i js =>
      have : envEventOf i = none := by simpa [hostNext] using hj
      unfold Link.waitEvents
      rw [this]
  have hw : l.waitUntil cond n = l.stopWait cond n l.inputs := by
    rcases hs with hs | hs
    · unfold Link.waitUntil; rw [hs]; exact events _ hi
    · rw [waitUntil_not_sending cond n hs]; exact events _ hi
  rw [hw, Link.stopWait, hc]
  by_cases hn : n = 0 <;> simp [hn]

/-- A quiet transmitter, in the terms of the invariant. -/
theorem Link.Inv.not_sending {p : Params} {l : Link} (hi : l.Inv p) (hc : l.rxClean = true) : l.sending = false := by
  have h2 : l.sending = !(l.txe && !l.tsrBusy) := by unfold Link.sending; cases l.txe <;> cases l.tsrBusy <;> rfl
  rw [h2, ← hi.tcMeans, hi.cleanMeans hc]; rfl

end Sys2Proof.Machine
end

