-- ==== Sys2Proof/Laws/Memory.lean ====
section
/-! SUPPORT. The laws of the memory operations: what a read gives after a write, and that a write keeps the canonical
form. -/

namespace Sys2Proof.Machine

theorem memLookup_append (m n : List Host.Cell) (x : Nat) :
    memLookup (m ++ n) x = (memLookup m x).or (memLookup n x) := by
  induction m with
  | nil => simp [memLookup]
  | cons c t ih =>
    obtain ⟨k, v⟩ := c
    by_cases h : k = x <;> simp [memLookup, h, ih]

theorem memLookup_filter (q : Nat → Bool) (m : List Host.Cell) (x : Nat) :
    memLookup (m.filter fun c => q c.1) x = if q x then memLookup m x else none := by
  induction m with
  | nil => simp [memLookup]
  | cons c t ih =>
    obtain ⟨k, v⟩ := c
    by_cases hq : q k <;> by_cases h : k = x <;> simp_all [memLookup]

theorem memLookup_cellsFrom (a : Nat) (l : List Byte) (x : Nat) :
    memLookup (cellsFrom a l) x = if a ≤ x then l[x - a]? else none := by
  induction l generalizing a with
  | nil => simp [cellsFrom, memLookup]
  | cons v t ih =>
    simp only [cellsFrom, memLookup, ih]
    by_cases h : a = x
    · simp [h]
    · by_cases h2 : a + 1 ≤ x
      · rw [if_neg h, if_pos h2, if_pos (by omega)]
        obtain ⟨d, rfl⟩ := Nat.exists_eq_add_of_le h2
        rw [show a + 1 + d - a = d + 1 by omega, show a + 1 + d - (a + 1) = d by omega]
        simp
      · rw [if_neg h, if_neg h2, if_neg (by omega)]

/-- A cell inside the written range reads as the byte written there, any other as before. -/
theorem memLookup_memWrite (m : List Host.Cell) (a : Nat) (l : List Byte) (x : Nat) :
    memLookup (memWrite m a l) x = if a ≤ x ∧ x < a + l.length then l[x - a]? else memLookup m x := by
  unfold memWrite
  rw [memLookup_append, memLookup_append, memLookup_filter (fun k => decide (k < a)),
    memLookup_filter (fun k => decide (a + l.length ≤ k)), memLookup_cellsFrom]
  by_cases h1 : x < a
  · simp [h1, show ¬ a ≤ x by omega, show ¬ a + l.length ≤ x by omega]
  · by_cases h2 : x < a + l.length
    · have h3 : x - a < l.length := by omega
      simp [h1, h2, show a ≤ x by omega, show ¬ a + l.length ≤ x by omega, h3]
    · have h3 : l.length ≤ x - a := by omega
      simp [h1, h2, show a ≤ x by omega, show a + l.length ≤ x by omega, List.getElem?_eq_none h3]

/-! ### The canonical form -/

theorem cellsRise_iff (lo bound : Nat) (m : List Host.Cell) :
    cellsRise lo bound m = true ↔
      m.Pairwise (fun c d => c.1 < d.1) ∧ ∀ c ∈ m, lo ≤ c.1 ∧ c.1 < bound := by
  induction m generalizing lo with
  | nil => simp [cellsRise]
  | cons c t ih =>
    obtain ⟨k, v⟩ := c
    simp only [cellsRise, Bool.and_eq_true, decide_eq_true_eq, ih, List.pairwise_cons, List.mem_cons, forall_eq_or_imp]
    constructor
    · rintro ⟨⟨h1, h2⟩, h3, h4⟩
      exact ⟨⟨fun d hd => by have := h4 d hd; omega, h3⟩, ⟨h1, h2⟩, fun d hd => by have := h4 d hd; omega⟩
    · rintro ⟨⟨h1, h2⟩, ⟨h3, h4⟩, h5⟩
      exact ⟨⟨h3, h4⟩, h2, fun d hd => ⟨by have := h1 d hd; omega, (h5 d hd).2⟩⟩

theorem memWf_iff (bound : Nat) (m : List Host.Cell) :
    memWf bound m = true ↔ m.Pairwise (fun c d => c.1 < d.1) ∧ ∀ c ∈ m, c.1 < bound := by
  simp [memWf, cellsRise_iff]

theorem mem_cellsFrom {a : Nat} {l : List Byte} {c : Host.Cell} (h : c ∈ cellsFrom a l) :
    a ≤ c.1 ∧ c.1 < a + l.length := by
  induction l generalizing a with
  | nil => simp [cellsFrom] at h
  | cons v t ih =>
    simp only [cellsFrom, List.mem_cons] at h
    rcases h with rfl | h
    · simp
    · have := ih h; simp only [List.length_cons]; omega

theorem pairwise_cellsFrom (a : Nat) (l : List Byte) : (cellsFrom a l).Pairwise (fun c d => c.1 < d.1) := by
  induction l generalizing a with
  | nil => simp [cellsFrom]
  | cons v t ih =>
    simp only [cellsFrom, List.pairwise_cons]
    exact ⟨fun d hd => by have := mem_cellsFrom hd; omega, ih _⟩

/-- A write inside the memory keeps the canonical form. -/
theorem memWf_memWrite {bound : Nat} {m : List Host.Cell} {a : Nat} {l : List Byte}
    (h : memWf bound m = true) (hl : a + l.length ≤ bound) : memWf bound (memWrite m a l) = true := by
  rw [memWf_iff] at h ⊢
  obtain ⟨hp, hb⟩ := h
  unfold memWrite
  constructor
  · simp only [List.pairwise_append, List.mem_append, List.mem_filter, decide_eq_true_eq]
    refine ⟨⟨hp.filter _, pairwise_cellsFrom a l, ?_⟩, hp.filter _, ?_⟩
    · rintro c ⟨-, hc⟩ d hd
      have := mem_cellsFrom hd; omega
    · rintro c (⟨-, hc⟩ | hc) d ⟨-, hd⟩
      · omega
      · have := mem_cellsFrom hc; omega
  · simp only [List.mem_append, List.mem_filter, decide_eq_true_eq]
    rintro c ((⟨hc, -⟩ | hc) | ⟨hc, -⟩)
    · exact hb c hc
    · have := mem_cellsFrom hc; omega
    · exact hb c hc

/-- A write of no bytes changes nothing. -/
theorem memWrite_nil {bound : Nat} {m : List Host.Cell} (a : Nat) (h : memWf bound m = true) :
    memWrite m a [] = m := by
  have hp := ((memWf_iff bound m).1 h).1
  clear h
  simp only [memWrite, cellsFrom, List.length_nil, Nat.add_zero, List.append_nil]
  induction m with
  | nil => rfl
  | cons c t ih =>
    obtain ⟨hc, ht⟩ := List.pairwise_cons.1 hp
    by_cases hk : c.1 < a
    · simp [hk, show ¬ a ≤ c.1 by omega, ih ht]
    · have e1 : t.filter (fun d => decide (d.1 < a)) = [] := by
        simp only [List.filter_eq_nil_iff, decide_eq_true_eq]
        intro d hd; have := hc d hd; omega
      have e2 : t.filter (fun d => decide (a ≤ d.1)) = t := by
        simp only [List.filter_eq_self, decide_eq_true_eq]
        intro d hd; have := hc d hd; omega
      simp [hk, show a ≤ c.1 by omega, e1, e2]

/-- One write of several bytes is the writes of its bytes in ascending order (R45): reads cannot tell them apart. -/
theorem memLookup_memWrite_cons (m : List Host.Cell) (a : Nat) (v : Byte) (t : List Byte) (x : Nat) :
    memLookup (memWrite m a (v :: t)) x = memLookup (memWrite (memWrite m a [v]) (a + 1) t) x := by
  simp only [memLookup_memWrite, List.length_cons, List.length_nil]
  by_cases h1 : a = x
  · subst h1; simp
  · by_cases h2 : a + 1 ≤ x ∧ x < a + 1 + t.length
    · rw [if_pos (by omega), if_pos h2]
      rw [show x - a = (x - (a + 1)) + 1 by omega]; simp
    · rw [if_neg (by omega), if_neg h2, if_neg (by omega)]

end Sys2Proof.Machine
end

