-- ==== Sys2Proof/Laws/Reading.lean ====
section
/-! SUPPORT. What `READB` and the loop of `COLLECT` come to: the mark of a clean receive path through a wait, why the
loop ends, and what it takes from a burst. -/

namespace Sys2Proof.Machine

/-! ### The receive path stays clean -/

@[simp] theorem Link.rxClean_apply (e : EnvEvent) (l : Link) : (l.apply e).rxClean = l.rxClean := by
  cases e with
  | shift => simp only [Link.apply, Link.shift]; split <;> rfl
  | done v => simp only [Link.apply, Link.done]; split <;> simp
  | rx v => simp only [Link.apply, Link.rx]; split <;> simp
  | rto => simp only [Link.apply, Link.raiseRto]; split <;> rfl
  | err => simp only [Link.apply, Link.raiseErr]; split <;> rfl
  | tick => rfl

@[simp] theorem Link.rxClean_txStep (l : Link) : l.txStep.rxClean = l.rxClean := by
  unfold Link.txStep
  split
  · exact rxClean_apply (.done _) _
  · exact rxClean_apply .shift l

/-- A wait leaves `rx_clean` alone (R78). -/
@[simp] theorem Link.rxClean_waitUntil (cond : Link → Bool) (n : Nat) (l : Link) :
    (l.waitUntil cond n).2.rxClean = l.rxClean :=
  waitUntil_preserves (P := fun k => k.rxClean = l.rxClean) (fun e k h => (rxClean_apply e k).trans h)
    (fun k h => (rxClean_txStep k).trans h) (fun _ _ _ h => h) cond n rfl

@[simp] theorem Link.rxClean_readWait (p : Params) (l : Link) : (l.readWait p).2.rxClean = l.rxClean :=
  rxClean_waitUntil _ _ _

@[simp] theorem Link.rxClean_take (o : Option Sym7) (l : Link) : (l.take o).2.rxClean = l.rxClean := by
  cases o <;> rfl

@[simp] theorem Link.rxClean_takeOrFail (l : Link) : l.takeOrFail.2.rxClean = l.rxClean := rxClean_take _ l

@[simp] theorem Link.rxClean_takeUnclean (l : Link) : l.takeUnclean.2.rxClean = l.rxClean := rxClean_take _ _

theorem Link.takeOrFail_of_rxne {l : Link} (h : l.rxne = true) :
    l.takeOrFail =
      (⟨false, (l.rdr.setWidth 7).setWidth 16⟩,
        { l with rxne := false, wire := l.wire ++ [.rxTaken (l.rdr.setWidth 7)] }) := by
  simp [Link.takeOrFail, Link.take, h]

theorem Link.takeOrFail_of_empty {l : Link} (h : l.rxne = false) :
    l.takeOrFail =
      (.sentinel, { l with rto := Config.freeBit l.draws, draws := l.draws + 1, wire := l.wire ++ [.rxFail] }) := by
  simp [Link.takeOrFail, Link.take, h]

/-! ### Why the loop ends -/

/-- How many symbols `READB` can still take without an arrival: one for each symbol in flight, whose echo the receiver
sees, and the one in `RDR`. -/
def Link.pending (l : Link) : Nat := l.tsrBusy.toNat + (!l.txe).toNat + l.rxne.toNat

/-- How many it can still take: those, and one for each item of the agenda. -/
def Link.toCome (l : Link) : Nat := l.inputs.length + l.pending

theorem Link.pending_latch_le (v : Byte) (l : Link) : (l.latch v).pending ≤ l.pending + 1 := by
  simp only [Link.pending, tsrBusy_latch, txe_latch, rxne_latch]
  have : (true : Bool).toNat = 1 := rfl
  omega

theorem Link.pending_shift (l : Link) : l.shift.pending = l.pending := by
  unfold Link.shift
  split
  · rename_i h
    simp only [Bool.and_eq_true, Bool.not_eq_true'] at h
    simp [Link.pending, h]
  · rfl

theorem Link.pending_done_le (v : Byte) (l : Link) : (l.done v).pending ≤ l.pending := by
  unfold Link.done
  split
  · rename_i h
    refine (pending_latch_le _ _).trans (le_of_eq ?_)
    simp only [Link.pending, h, Bool.toNat_false, Bool.toNat_true]; omega
  · exact le_rfl

/-- An event adds at most one symbol, and it is itself an item of the agenda. -/
theorem Link.pending_apply_le (e : EnvEvent) (l : Link) : (l.apply e).pending ≤ l.pending + 1 := by
  cases e with
  | shift => exact (pending_shift l).le.trans (Nat.le_succ _)
  | done v => exact (pending_done_le v l).trans (Nat.le_succ _)
  | rx v =>
    simp only [Link.apply, Link.rx]
    split
    · exact pending_latch_le _ _
    · exact Nat.le_succ _
  | rto => simp only [Link.apply, Link.raiseRto]; split <;> exact Nat.le_succ _
  | err => simp only [Link.apply, Link.raiseErr]; split <;> exact Nat.le_succ _
  | tick => exact Nat.le_succ _

theorem Link.pending_txStep_le (l : Link) : l.txStep.pending ≤ l.pending := by
  unfold Link.txStep
  split
  · exact pending_done_le _ _
  · exact (pending_shift l).le

theorem Link.toCome_stopWait (cond : Link → Bool) (n : Nat) (is : List Input) (l : Link) :
    (l.stopWait cond n is).2.toCome = is.length + l.pending := by
  unfold Link.stopWait; split <;> [rfl; split <;> rfl]

theorem Link.toCome_waitEvents_le (cond : Link → Bool) (n : Nat) (is : List Input) (l : Link) :
    (Link.waitEvents cond n is l).2.toCome ≤ is.length + l.pending := by
  induction is generalizing n l with
  | nil => exact (toCome_stopWait _ _ _ _).le
  | cons i is ih =>
    unfold Link.waitEvents
    split
    · exact (toCome_stopWait _ _ _ _).le
    · rename_i e _
      split
      · exact (toCome_stopWait _ _ _ _).le
      · have h1 := ih (budgetAfter n e) (l.apply e)
        have h2 := pending_apply_le e l
        simp only [List.length_cons]; omega

theorem Link.pending_overtake_le (cond : Link → Bool) (n : Nat) (is : List Input) (l : Link) :
    (l.overtake cond n is).2.1.length + (l.overtake cond n is).2.2.pending ≤ is.length + l.pending := by
  induction is generalizing n l with
  | nil => exact le_rfl
  | cons i is ih =>
    unfold Link.overtake
    split
    · exact le_rfl
    · rename_i e _
      split
      · exact le_rfl
      · have h1 := ih (budgetAfter n e) (l.apply e)
        have h2 := pending_apply_le e l
        simp only [List.length_cons]; omega

theorem Link.toCome_waitUntil_le (cond : Link → Bool) (n : Nat) (l : Link) :
    (l.waitUntil cond n).2.toCome ≤ l.toCome := by
  unfold Link.waitUntil
  split
  · have h1 := pending_overtake_le cond n l.inputs l
    generalize l.overtake cond n l.inputs = w at h1 ⊢
    have h2 : (w.2.2.drain cond 3).pending ≤ w.2.2.pending :=
      drain_preserves (P := fun m => m.pending ≤ w.2.2.pending) (fun m h => (pending_txStep_le m).trans h) cond 3 le_rfl
    exact (toCome_waitEvents_le cond w.1 w.2.1 _).trans (le_trans (by omega) h1)
  · exact toCome_waitEvents_le cond n l.inputs l

/-- Against a silent environment the loop returns: each turn that takes a symbol leaves one fewer to come (R104). -/
theorem Link.readLoop_returns (p : Params) (n : Nat) (acc : List Sym7) (l : Link) (hs : l.envSilent = true)
    (hn : l.toCome < n) : ∃ r, l.readLoop p n acc = some r := by
  induction n generalizing acc l with
  | zero => omega
  | succ n ih =>
    have hw : (l.readWait p).2.toCome ≤ l.toCome := toCome_waitUntil_le _ _ _
    have hq : (l.readWait p).2.envSilent = true := (follows_waitUntil Link.canRead p.rxWaitTicks l).envSilent.trans hs
    rw [readLoop_succ, if_neg (by simp [Link.babbles, hq])]
    split
    · exact ⟨_, rfl⟩
    · rename_i hf
      apply ih _ _ ((follows_takeOrFail _).envSilent.trans hq)
      generalize (l.readWait p).2 = k at hw hf ⊢
      cases hr : k.rxne
      · rw [takeOrFail_of_empty hr] at hf; exact absurd rfl hf
      · rw [takeOrFail_of_rxne hr]
        simp only [Link.toCome, Link.pending, hr, Bool.toNat_true] at hw hn
        show k.inputs.length + (k.tsrBusy.toNat + (!k.txe).toNat + 0) < n
        omega

theorem Link.rxne_flush (p : Params) (l : Link) : (l.flush p).rxne = false := rfl

theorem Link.readDrawn_returns (p : Params) (r : List Sym7) (l : Link) (hs : l.envSilent = true) :
    ∃ k, l.readDrawn p r = some k := by
  induction r generalizing l with
  | nil =>
    rw [readDrawn_nil, if_neg]
    · exact ⟨_, rfl⟩
    · simp [Link.babbles, Link.readWait, (follows_waitUntil Link.canRead p.rxWaitTicks l).envSilent, hs]
  | cons v t ih =>
    have hq : (l.readWait p).2.envSilent = true := (follows_waitUntil Link.canRead p.rxWaitTicks l).envSilent.trans hs
    rw [readDrawn_cons, if_neg (by simp [Link.babbles, hq])]
    exact ih _ ((follows_take _ _).envSilent.trans hq)

/-- Against a silent environment every response has an end (R104, R108). -/
theorem Link.response_returns (p : Params) (l : Link) (hs : l.envSilent = true) :
    ∃ r, (l.askForResponse p).response p = some r := by
  have hq : (l.askForResponse p).envSilent = true := (follows_askForResponse p l).envSilent.trans hs
  have hr : (l.askForResponse p).rxne = false := rfl
  generalize l.askForResponse p = k at hq hr ⊢
  unfold Link.response
  split
  · apply readLoop_returns _ _ _ _ hq
    have h1 : k.tsrBusy.toNat ≤ 1 := Bool.toNat_le _
    have h2 : (!k.txe).toNat ≤ 1 := Bool.toNat_le _
    have h3 : k.rxne.toNat = 0 := by rw [hr]; rfl
    simp only [Link.toCome, Link.pending]; omega
  · obtain ⟨m, h⟩ := readDrawn_returns p (Config.freeBurst k.draws) { k with draws := k.draws + 1 } hq
    exact ⟨_, by unfold Link.uncleanResponse; simp only [h]; rfl⟩

/-- After a `FLUSH` that left a clean path the response is what the loop takes (R105). -/
theorem Link.response_clean (p : Params) {l : Link} (hc : l.rxClean = true) :
    l.response p = l.readLoop p (l.inputs.length + 3) [] := by
  unfold Link.response; rw [if_pos hc]

/-! ### What a wait of `READB` brings -/

/-- A symbol in `RDR`, or the timeout condition, ends the wait at once (R73). -/
theorem Link.readWait_of_canRead (p : Params) {l : Link} (h : l.canRead = true) : l.readWait p = (.held, l) :=
  waitUntil_of_holds h _

/-- On an idle path the arrival of a symbol ends the wait (R79, R80). -/
theorem Link.readWait_rx (p : Params) {l : Link} (v : Byte) (rest : List Input) (he : l.cfgEn = true)
    (hs : l.sending = false) (hr : l.canRead = false) (hb : 0 < p.rxWaitTicks)
    (hi : l.inputs = .env (.rx v) :: rest) :
    l.readWait p = (.held, { l with rdr := v, rxne := true, inputs := rest }) := by
  have hx : l.rxne = false := by unfold Link.canRead at hr; cases h : l.rxne <;> simp_all
  unfold Link.readWait
  rw [waitUntil_not_sending _ _ hs, hi]
  simp only [Link.waitEvents, envEventOf, hr, Bool.false_or, beq_iff_eq, Nat.pos_iff_ne_zero.1 hb, if_false]
  rw [waitEvents_of_holds (by simp [Link.apply, Link.rx, he, Link.canRead])]
  simp [Link.apply, Link.rx, he, latch_free v hx]

/-- On an idle path with no event before the host's next input the budget passes (R9, log 4). -/
theorem Link.readWait_dry (p : Params) {l : Link} (hs : l.sending = false) (hr : l.canRead = false)
    (hb : 0 < p.rxWaitTicks) (hi : hostNext l.inputs = true) :
    l.readWait p = (.ranDry, { l with ticks := l.ticks + p.rxWaitTicks }) := by
  unfold Link.readWait
  rw [waitUntil_dry _ _ (.inr hs) hr hi, if_neg (Nat.pos_iff_ne_zero.1 hb)]

/-- On an idle path the inter-byte timeout ends the wait (R35, R73). -/
theorem Link.readWait_rto (p : Params) {l : Link} (rest : List Input) (he : l.cfgEn = true)
    (hs : l.sending = false) (hr : l.canRead = false) (hb : 0 < p.rxWaitTicks) (hi : l.inputs = .env .rto :: rest) :
    l.readWait p = (.held, { l with rto := true, inputs := rest }) := by
  unfold Link.readWait
  rw [waitUntil_not_sending _ _ hs, hi]
  simp only [Link.waitEvents, envEventOf, hr, Bool.false_or, beq_iff_eq, Nat.pos_iff_ne_zero.1 hb, if_false]
  rw [waitEvents_of_holds (by simp [Link.apply, Link.raiseRto, he, Link.canRead])]
  simp [Link.apply, Link.raiseRto, he]

/-- One turn of the loop on an idle path takes the symbol that arrives. -/
theorem Link.readLoop_rx (p : Params) {l : Link} (n : Nat) (acc : List Sym7) (v : Byte) (rest : List Input)
    (he : l.cfgEn = true) (hs : l.sending = false) (hr : l.canRead = false) (hb : 0 < p.rxWaitTicks)
    (hi : l.inputs = .env (.rx v) :: rest) :
    l.readLoop p (n + 1) acc =
      Link.readLoop p n (acc ++ [v.setWidth 7])
        { l with rdr := v, rxne := false, inputs := rest, wire := l.wire ++ [.rxTaken (v.setWidth 7)] } := by
  rw [readLoop_succ, readWait_rx p v rest he hs hr hb hi]
  simp [Link.babbles, Link.takeOrFail, Link.take]

/-- The loop takes a whole burst, symbol by symbol. -/
theorem Link.readLoop_burst (p : Params) (r : List Byte) (rest : List Input) (n : Nat) (acc : List Sym7) {l : Link}
    (he : l.cfgEn = true) (hs : l.sending = false) (hr : l.canRead = false) (hb : 0 < p.rxWaitTicks)
    (hi : l.inputs = r.map (fun v => .env (.rx v)) ++ rest) :
    ∃ d, l.readLoop p (n + r.length) acc =
      Link.readLoop p n (acc ++ r.map (·.setWidth 7))
        { l with rdr := d, inputs := rest, wire := l.wire ++ r.map fun v => .rxTaken (v.setWidth 7) } := by
  induction r generalizing l acc with
  | nil =>
    refine ⟨l.rdr, ?_⟩
    simp only [List.map_nil, List.nil_append] at hi
    simp [← hi]
  | cons v t ih =>
    have hx : l.rxne = false := by unfold Link.canRead at hr; cases h : l.rxne <;> simp_all
    rw [show n + (v :: t).length = (n + t.length) + 1 by simp [Nat.add_assoc],
      readLoop_rx p _ acc v (t.map (fun v => Input.env (.rx v)) ++ rest) he hs hr hb hi]
    obtain ⟨d, hd⟩ := ih (acc ++ [v.setWidth 7])
      (l := { l with
        rdr := v, rxne := false, inputs := t.map (fun v => .env (.rx v)) ++ rest,
        wire := l.wire ++ [.rxTaken (v.setWidth 7)] }) he hs (by simpa [Link.canRead, hx] using hr) rfl
    exact ⟨d, hd.trans (by simp [List.append_assoc, hx])⟩

/-! ### What `READB` returns -/

/-- A `READB` returns a symbol and records it, or the sentinel and records the failure (R79, R81). -/
theorem Link.take_cases (o : Option Sym7) (l : Link) :
    ((l.take o).1.fail = false ∧ (l.take o).1.val.toNat ≤ 127 ∧
      (l.take o).2.wire = l.wire ++ [.rxTaken ((l.take o).1.val.setWidth 7)]) ∨
    ((l.take o).1 = Res.sentinel ∧ (l.take o).2.wire = l.wire ++ [.rxFail]) := by
  cases o with
  | none => exact .inr ⟨rfl, rfl⟩
  | some v =>
    refine .inl ⟨rfl, ?_, by simp [Link.take]⟩
    show (v.setWidth 16).toNat ≤ 127
    rw [BitVec.toNat_setWidth]; have := v.isLt; omega

/-! ### No symbol is lost -/

theorem Link.symbolsSent_of_sent {l k : Link} (h : k.sent = l.sent) : k.symbolsSent = l.symbolsSent :=
  congrArg (List.filterMap txSymbol) h

theorem Link.symbolsSent_waitUntil (cond : Link → Bool) (n : Nat) (l : Link) :
    (l.waitUntil cond n).2.symbolsSent = l.symbolsSent := symbolsSent_of_sent (sent_waitUntil cond n l)

/-- What `READB` and `FLUSH` record on the wire history is no symbol sent. -/
theorem Link.symbolsSent_record {l k : Link} {e : WireEvent} (he : txSymbol e = none) (hw : k.wire = l.wire ++ [e])
    (hx : k.txe = l.txe) (hd : k.tdr = l.tdr) : k.symbolsSent = l.symbolsSent := by
  simp [Link.symbolsSent, Link.sent, hw, hx, hd, he, List.filterMap_append]

theorem Link.symbolsSent_take (o : Option Sym7) (l : Link) : (l.take o).2.symbolsSent = l.symbolsSent := by
  cases o <;> exact symbolsSent_record (by rfl) rfl rfl rfl

theorem Link.symbolsSent_flush (p : Params) (l : Link) : (l.flush p).symbolsSent = l.symbolsSent :=
  (symbolsSent_record (l := (l.waitUntil Link.allSent p.tcWaitTicks).2) (k := l.flush p) (e := .flushed)
    rfl rfl rfl rfl).trans
    (symbolsSent_waitUntil Link.allSent p.tcWaitTicks l)

/-- `SENDB` adds its symbol, or where its wait runs out nothing (R75). -/
theorem Link.symbolsSent_sendb (p : Params) (v : Byte) (l : Link) :
    (l.sendb p v).symbolsSent = l.symbolsSent ++ [v] ∨ (l.sendb p v).symbolsSent = l.symbolsSent := by
  have h1 := symbolsSent_waitUntil Link.canSend p.txWaitTicks l
  have h2 := waitUntil_canSend p.txWaitTicks l
  unfold Link.sendb
  split <;> rename_i heq <;> rw [heq] at h1 h2
  · left
    have h3 := h2.1 rfl
    simp only at h3
    rw [← h1]
    simp [Link.symbolsSent, Link.sent, h3, txSymbol]
  · exact .inr h1

theorem Link.symbolsSent_sendSyms (p : Params) (syms : List Byte) (l : Link) :
    l.symbolsSent <+: (l.sendSyms p syms).symbolsSent := by
  unfold Link.sendSyms
  induction syms generalizing l with
  | nil => exact List.prefix_rfl
  | cons v t ih =>
    refine List.IsPrefix.trans ?_ (ih (l.sendb p v))
    rcases symbolsSent_sendb p v l with h | h <;> rw [h]
    · exact List.prefix_append _ _

theorem Link.symbolsSent_readb (p : Params) (l : Link) : (l.readb p).2.symbolsSent = l.symbolsSent := by
  have h : (if Link.babbles (l.readWait p) then (l.readWait p).2.hearBabble else (l.readWait p).2).symbolsSent =
      l.symbolsSent := by
    refine Eq.trans ?_ (symbolsSent_waitUntil Link.canRead p.rxWaitTicks l)
    split
    · exact symbolsSent_of_sent (sent_apply (.rx _) { (l.readWait p).2 with draws := (l.readWait p).2.draws + 1 })
    · rfl
  unfold Link.readb
  simp only
  generalize (if Link.babbles (l.readWait p) then (l.readWait p).2.hearBabble else (l.readWait p).2) = k at h ⊢
  split
  · exact (symbolsSent_take _ k).trans h
  · exact (symbolsSent_take _ { k with draws := k.draws + 1 }).trans h

theorem Link.symbolsSent_readLoop (p : Params) (n : Nat) (acc : List Sym7) (l : Link) {r : List Sym7 × Link}
    (h : l.readLoop p n acc = some r) : r.2.symbolsSent = l.symbolsSent := by
  induction n generalizing acc l with
  | zero => cases h
  | succ n ih =>
    have hw : (l.readWait p).2.takeOrFail.2.symbolsSent = l.symbolsSent :=
      (symbolsSent_take _ _).trans (symbolsSent_waitUntil Link.canRead p.rxWaitTicks l)
    rw [readLoop_succ] at h
    split at h
    · cases h
    · split at h
      · cases h; exact hw
      · exact (ih _ _ h).trans hw

/-- The reads of `COLLECT` leave alone what has been handed to the transmitter, on a clean path or not (R51). -/
theorem Link.symbolsSent_response (p : Params) (l : Link) {r : List Sym7 × Link} (h : l.response p = some r) :
    r.2.symbolsSent = l.symbolsSent := by
  rcases response_cases p h with ⟨-, h⟩ | ⟨-, -, h⟩
  · exact symbolsSent_readLoop p _ _ l h
  · exact readDrawn_preserves (P := fun k => k.symbolsSent = l.symbolsSent) p
      (fun k hk => (symbolsSent_waitUntil _ _ k).trans hk) (fun o k hk => (symbolsSent_take o k).trans hk) r.1
      (l := { l with draws := l.draws + 1 }) rfl h

end Sys2Proof.Machine
end

