-- ==== Sys2Proof/Laws/State.lean ====
section
/-! SUPPORT. One lemma for each field of the state under each of its updates, and what the host's accepted operations
come to, so that no later proof unfolds a record update. -/

namespace Sys2Proof.Machine

/-! ### `onLink` -/

@[simp] theorem State.cfg_onLink (f : Link → Link) (s : State) : (s.onLink f).cfg = s.cfg := rfl

@[simp] theorem State.link_onLink (f : Link → Link) (s : State) : (s.onLink f).link = f s.link := rfl

@[simp] theorem State.crc_onLink (f : Link → Link) (s : State) : (s.onLink f).crc = s.crc := rfl

@[simp] theorem State.crcValid_onLink (f : Link → Link) (s : State) : (s.onLink f).crcValid = s.crcValid := rfl

@[simp] theorem State.res_onLink (f : Link → Link) (s : State) : (s.onLink f).res = s.res := rfl

@[simp] theorem State.symLen_onLink (f : Link → Link) (s : State) : (s.onLink f).symLen = s.symLen := rfl

@[simp] theorem State.sym_onLink (f : Link → Link) (s : State) : (s.onLink f).sym = s.sym := rfl

@[simp] theorem State.buf_onLink (f : Link → Link) (s : State) : (s.onLink f).buf = s.buf := rfl

@[simp] theorem State.busy_onLink (f : Link → Link) (s : State) : (s.onLink f).busy = s.busy := rfl

@[simp] theorem State.boot_onLink (f : Link → Link) (s : State) : (s.onLink f).boot = s.boot := rfl

/-! ### `bufWrite` -/

@[simp] theorem State.cfg_bufWrite (a : Nat) (l : List Byte) (s : State) : (s.bufWrite a l).cfg = s.cfg := rfl

@[simp] theorem State.link_bufWrite (a : Nat) (l : List Byte) (s : State) : (s.bufWrite a l).link = s.link := rfl

@[simp] theorem State.crc_bufWrite (a : Nat) (l : List Byte) (s : State) : (s.bufWrite a l).crc = s.crc := rfl

@[simp] theorem State.crcValid_bufWrite (a : Nat) (l : List Byte) (s : State) : (s.bufWrite a l).crcValid = s.crcValid := rfl

@[simp] theorem State.res_bufWrite (a : Nat) (l : List Byte) (s : State) : (s.bufWrite a l).res = s.res := rfl

@[simp] theorem State.symLen_bufWrite (a : Nat) (l : List Byte) (s : State) : (s.bufWrite a l).symLen = s.symLen := rfl

@[simp] theorem State.sym_bufWrite (a : Nat) (l : List Byte) (s : State) : (s.bufWrite a l).sym = s.sym := rfl

@[simp] theorem State.buf_bufWrite (a : Nat) (l : List Byte) (s : State) : (s.bufWrite a l).buf = memWrite s.buf a l := rfl

@[simp] theorem State.busy_bufWrite (a : Nat) (l : List Byte) (s : State) : (s.bufWrite a l).busy = s.busy := rfl

@[simp] theorem State.boot_bufWrite (a : Nat) (l : List Byte) (s : State) : (s.bufWrite a l).boot = s.boot := rfl

/-! ### `symLoad` -/

@[simp] theorem State.cfg_symLoad (l : List Byte) (s : State) : (s.symLoad l).cfg = s.cfg := rfl

@[simp] theorem State.link_symLoad (l : List Byte) (s : State) : (s.symLoad l).link = s.link := rfl

@[simp] theorem State.crc_symLoad (l : List Byte) (s : State) : (s.symLoad l).crc = s.crc := rfl

@[simp] theorem State.crcValid_symLoad (l : List Byte) (s : State) : (s.symLoad l).crcValid = s.crcValid := rfl

@[simp] theorem State.res_symLoad (l : List Byte) (s : State) : (s.symLoad l).res = s.res := rfl

@[simp] theorem State.symLen_symLoad (l : List Byte) (s : State) : (s.symLoad l).symLen = l.length := rfl

@[simp] theorem State.sym_symLoad (l : List Byte) (s : State) : (s.symLoad l).sym = memWrite s.sym 0 l := rfl

@[simp] theorem State.buf_symLoad (l : List Byte) (s : State) : (s.symLoad l).buf = s.buf := rfl

@[simp] theorem State.busy_symLoad (l : List Byte) (s : State) : (s.symLoad l).busy = s.busy := rfl

@[simp] theorem State.boot_symLoad (l : List Byte) (s : State) : (s.symLoad l).boot = s.boot := rfl

/-! ### `setRes` -/

@[simp] theorem State.cfg_setRes (v : Nat) (s : State) : (s.setRes v).cfg = s.cfg := rfl

@[simp] theorem State.link_setRes (v : Nat) (s : State) : (s.setRes v).link = s.link := rfl

@[simp] theorem State.crc_setRes (v : Nat) (s : State) : (s.setRes v).crc = s.crc := rfl

@[simp] theorem State.crcValid_setRes (v : Nat) (s : State) : (s.setRes v).crcValid = s.crcValid := rfl

@[simp] theorem State.res_setRes (v : Nat) (s : State) : (s.setRes v).res = ⟨false, BitVec.ofNat 16 v⟩ := rfl

@[simp] theorem State.symLen_setRes (v : Nat) (s : State) : (s.setRes v).symLen = s.symLen := rfl

@[simp] theorem State.sym_setRes (v : Nat) (s : State) : (s.setRes v).sym = s.sym := rfl

@[simp] theorem State.buf_setRes (v : Nat) (s : State) : (s.setRes v).buf = s.buf := rfl

@[simp] theorem State.busy_setRes (v : Nat) (s : State) : (s.setRes v).busy = s.busy := rfl

@[simp] theorem State.boot_setRes (v : Nat) (s : State) : (s.setRes v).boot = s.boot := rfl

/-! ### `withInputs` -/

@[simp] theorem State.cfg_withInputs (l : List Input) (s : State) : (s.withInputs l).cfg = s.cfg := rfl

@[simp] theorem State.link_withInputs (l : List Input) (s : State) : (s.withInputs l).link = { s.link with inputs := l } := rfl

@[simp] theorem State.crc_withInputs (l : List Input) (s : State) : (s.withInputs l).crc = s.crc := rfl

@[simp] theorem State.crcValid_withInputs (l : List Input) (s : State) : (s.withInputs l).crcValid = s.crcValid := rfl

@[simp] theorem State.res_withInputs (l : List Input) (s : State) : (s.withInputs l).res = s.res := rfl

@[simp] theorem State.symLen_withInputs (l : List Input) (s : State) : (s.withInputs l).symLen = s.symLen := rfl

@[simp] theorem State.sym_withInputs (l : List Input) (s : State) : (s.withInputs l).sym = s.sym := rfl

@[simp] theorem State.buf_withInputs (l : List Input) (s : State) : (s.withInputs l).buf = s.buf := rfl

@[simp] theorem State.busy_withInputs (l : List Input) (s : State) : (s.withInputs l).busy = s.busy := rfl

@[simp] theorem State.boot_withInputs (l : List Input) (s : State) : (s.withInputs l).boot = s.boot := rfl

/-! ### Reads under the updates -/

@[simp] theorem State.bufByte_onLink (f : Link → Link) (s : State) (x : Nat) : (s.onLink f).bufByte x = s.bufByte x := rfl

@[simp] theorem State.bufByte_symLoad (l : List Byte) (s : State) (x : Nat) : (s.symLoad l).bufByte x = s.bufByte x := rfl

@[simp] theorem State.bufByte_setRes (v : Nat) (s : State) (x : Nat) : (s.setRes v).bufByte x = s.bufByte x := rfl

@[simp] theorem State.bufByte_withInputs (l : List Input) (s : State) (x : Nat) :
    (s.withInputs l).bufByte x = s.bufByte x := rfl

@[simp] theorem State.symCell_onLink (f : Link → Link) (s : State) (x : Nat) : (s.onLink f).symCell x = s.symCell x := rfl

@[simp] theorem State.symCell_bufWrite (a : Nat) (l : List Byte) (s : State) (x : Nat) :
    (s.bufWrite a l).symCell x = s.symCell x := rfl

@[simp] theorem State.symCell_setRes (v : Nat) (s : State) (x : Nat) : (s.setRes v).symCell x = s.symCell x := rfl

@[simp] theorem State.symCell_withInputs (l : List Input) (s : State) (x : Nat) :
    (s.withInputs l).symCell x = s.symCell x := rfl

@[simp] theorem State.bufRead_onLink (f : Link → Link) (s : State) (a n : Nat) :
    (s.onLink f).bufRead a n = s.bufRead a n := rfl

@[simp] theorem State.length_bufRead (s : State) (a n : Nat) : (s.bufRead a n).length = n := by
  simp [State.bufRead]

@[simp] theorem State.length_symRead (s : State) : s.symRead.length = s.symLen := by
  simp [State.symRead]

theorem State.getElem_bufRead (s : State) (a n i : Nat) (h : i < (s.bufRead a n).length) :
    (s.bufRead a n)[i] = s.bufByte (a + i) := by
  simp [State.bufRead]

theorem State.bufRead_zero (s : State) (a : Nat) : s.bufRead a 0 = [] := rfl

/-- A range is its first part and the rest. -/
theorem State.bufRead_add (s : State) (a m n : Nat) :
    s.bufRead a (m + n) = s.bufRead a m ++ s.bufRead (a + m) n := by
  simp [State.bufRead, List.range_add, Function.comp_def, Nat.add_assoc]

theorem State.bufRead_succ (s : State) (a n : Nat) : s.bufRead a (n + 1) = s.bufByte a :: s.bufRead (a + 1) n := by
  rw [Nat.add_comm, State.bufRead_add]; rfl

/-! ### Acceptance -/

theorem bufRange_iff (a n : Nat) : bufRange a n = true ↔ a + n ≤ 512 := by unfold bufRange; exact decide_eq_true_iff

theorem symRange_iff (n : Nat) : symRange n = true ↔ 8 * n ≤ 4096 := by unfold symRange; exact decide_eq_true_iff

theorem bufAddr_iff (a : Nat) : bufAddr a = true ↔ a < 512 := by unfold bufAddr; exact decide_eq_true_iff

/-- The four conditions under which nothing is refused (R131). -/
theorem refusalOf_eq_none {inRange wire seed : Bool} {s : State} :
    refusalOf inRange wire seed s = none ↔
      s.busy = false ∧ inRange = true ∧ (wire = true → s.link.cfgEn = true) ∧ (seed = true → s.crcValid = true) := by
  unfold refusalOf
  cases s.busy <;> cases inRange <;> cases wire <;> cases seed <;> cases s.link.cfgEn <;> cases s.crcValid <;> simp

/-- What an offered operation comes to. -/
theorem offer_cases (inRange wire seed : Bool) (s : State) (run : Result) :
    (refusalOf inRange wire seed s = none ∧ offer inRange wire seed s run = run) ∨
      ∃ r, refusalOf inRange wire seed s = some r ∧ offer inRange wire seed s run = .refused r := by
  unfold offer
  cases refusalOf inRange wire seed s <;> simp

theorem offer_accepted {inRange wire seed : Bool} {s : State} (run : Result) (hb : s.busy = false)
    (hr : inRange = true) (hw : wire = true → s.link.cfgEn = true) (hs : seed = true → s.crcValid = true) :
    offer inRange wire seed s run = run := by
  unfold offer
  rw [refusalOf_eq_none.2 ⟨hb, hr, hw, hs⟩]

/-- If an offered operation answers a next state, it was accepted and that is its own. -/
theorem offer_eq_next {inRange wire seed : Bool} {s t : State} {run : Result} (h : offer inRange wire seed s run = .next t) :
    run = .next t ∧ s.busy = false ∧ inRange = true ∧ (wire = true → s.link.cfgEn = true) ∧
      (seed = true → s.crcValid = true) := by
  rcases offer_cases inRange wire seed s run with ⟨hn, he⟩ | ⟨r, -, he⟩
  · exact ⟨he ▸ h, refusalOf_eq_none.1 hn⟩
  · rw [he] at h; cases h

end Sys2Proof.Machine
end

