-- ==== Sys2Proof/Laws/Machine.lean ====
section
/-! SUPPORT. The lemmas of whole states: what a memory cell reads as after an update, which updates keep the invariant,
when an offered operation is refused, and what the end of `COLLECT` writes. -/

namespace Sys2Proof.Machine

/-! ### Reads after writes -/

theorem State.symCell_symLoad_of_lt (l : List Byte) (s : State) (x : Nat) (h : x < l.length) :
    some ((s.symLoad l).symCell x) = l[x]? := by
  simp [State.symCell, State.symLoad, memLookup_memWrite, h]

theorem State.symCell_symLoad_of_le (l : List Byte) (s : State) (x : Nat) (h : l.length ≤ x) :
    (s.symLoad l).symCell x = s.symCell x := by
  simp only [State.symCell, State.symLoad, memLookup_memWrite]
  rw [if_neg (by omega)]

theorem State.bufByte_bufWrite_add (a : Nat) (l : List Byte) (s : State) (k : Nat) (h : k < l.length) :
    some ((s.bufWrite a l).bufByte (a + k)) = l[k]? := by
  simp [State.bufByte, State.bufWrite, memLookup_memWrite, h]

theorem State.bufByte_bufWrite_of_outside (a : Nat) (l : List Byte) (s : State) (x : Nat)
    (h : x < a ∨ a + l.length ≤ x) : (s.bufWrite a l).bufByte x = s.bufByte x := by
  simp only [State.bufByte, State.bufWrite, memLookup_memWrite]
  rw [if_neg (by omega)]

theorem State.getElem?_symRead (s : State) (i : Nat) (hi : i < s.symLen) : s.symRead[i]? = some (s.symCell i) := by
  simp [State.symRead, hi]

/-- A two-byte value as a number: the low byte at the lower address (R40). -/
theorem State.toNat_bufHalf (s : State) (a : Nat) :
    (s.bufHalf a).toNat = (s.bufByte a).toNat + 256 * (s.bufByte (a + 1)).toNat := by
  unfold State.bufHalf
  rw [BitVec.toNat_append, ← Nat.shiftLeft_add_eq_or_of_lt (s.bufByte a).isLt, Nat.shiftLeft_eq]; omega

/-! ### Updates that keep the invariant -/

/-- What an update must leave or keep. -/
theorem Inv.update {s t : State} (h : Inv s) (hc : t.cfg = s.cfg) (hb : t.busy = s.busy) (hl : t.link.Inv t.cfg)
    (h1 : memWf Config.bufBytes t.buf = true) (h2 : memWf Config.symCap t.sym = true) (h3 : t.symLen ≤ Config.symCap)
    (h4 : ∀ i < t.symLen, (memLookup t.sym i).isSome = true) (h5 : t.res.fail = true → t.res = Res.sentinel)
    (h6 : t.res.fail = false → t.res.val ≠ 0xFFFF) : Inv t :=
  ⟨hc ▸ h.lawful, hb.trans h.idle, hl, h1, h2, h3, h4, h5, h6⟩

theorem Inv.onLink {s : State} (f : Link → Link) (h : Inv s) (hf : (f s.link).Inv s.cfg) : Inv (s.onLink f) :=
  h.update rfl rfl hf h.bufWf h.symWf h.symLenBound h.symValid h.failMeans h.valMeans

theorem Inv.withInputs {s : State} (l : List Input) (h : Inv s) : Inv (s.withInputs l) :=
  h.onLink _ ⟨h.link.1, h.link.2, h.link.3, h.link.4⟩

theorem Inv.bufWrite {s : State} (a : Nat) (l : List Byte) (h : Inv s) (hr : a + l.length ≤ 512) :
    Inv (s.bufWrite a l) :=
  h.update rfl rfl h.link (memWf_memWrite h.bufWf hr) h.symWf h.symLenBound h.symValid h.failMeans h.valMeans

theorem Inv.symLoad {s : State} (l : List Byte) (h : Inv s) (hr : l.length ≤ 4096) : Inv (s.symLoad l) := by
  refine h.update rfl rfl h.link h.bufWf (memWf_memWrite h.symWf (by rw [Nat.zero_add]; exact hr)) hr ?_
    h.failMeans h.valMeans
  intro i hi
  simp only [State.sym_symLoad, State.symLen_symLoad, memLookup_memWrite] at *
  simp [hi]

/-- A result below the sentinel's value (R160). -/
theorem Inv.setRes {s : State} (v : Nat) (h : Inv s) (hv : v < 0xFFFF) : Inv (s.setRes v) := by
  refine h.update rfl rfl h.link h.bufWf h.symWf h.symLenBound h.symValid (by simp) ?_
  intro _ hc
  have := congrArg BitVec.toNat hc
  simp [Nat.mod_eq_of_lt (show v < 65536 by omega)] at this
  omega

/-! ### Offers -/

theorem offer_eq_fault {inRange wire seed : Bool} {s : State} {run : Result} {f : Fault}
    (h : offer inRange wire seed s run = .fault f) : run = .fault f := by
  rcases offer_cases inRange wire seed s run with ⟨-, he⟩ | ⟨r, -, he⟩
  · exact he ▸ h
  · rw [he] at h; cases h

/-- A command word is refused by the decoder or run as the operation it spells. -/
theorem step_commandWord {s : State} {w : BitVec 32} {rest : List Input} (h : s.link.inputs = .word (.cw32 w) :: rest) :
    step s = match decodeCw w with
      | .ok i => exec i (s.withInputs rest)
      | .error e => .refused (refusalOfDecode e) := by
  unfold step; rw [h]; rfl

/-! ### `READB` and `COLLECT` -/

/-- What `READB` returns and records, in a clean path or not (R78, R79). -/
theorem Link.readb_cases (p : Params) (l : Link) :
    ((l.readb p).1.fail = false ∧ (l.readb p).1.val.toNat ≤ 127 ∧
      (l.readb p).2.wire.getLast? = some (.rxTaken ((l.readb p).1.val.setWidth 7))) ∨
    ((l.readb p).1 = Res.sentinel ∧ (l.readb p).2.wire.getLast? = some .rxFail) := by
  unfold Link.readb
  simp only
  generalize (if Link.babbles (l.readWait p) then (l.readWait p).2.hearBabble else (l.readWait p).2) = k
  split
  · rcases k.take_cases (if k.rxne then some (k.rdr.setWidth 7) else none) with ⟨h1, h2, h3⟩ | ⟨h1, h2⟩
    · exact .inl ⟨h1, h2, by rw [Link.takeOrFail, h3]; simp⟩
    · exact .inr ⟨h1, by rw [Link.takeOrFail, h2]; simp⟩
  · rcases Link.take_cases (Config.freeRead k.draws) { k with draws := k.draws + 1 } with ⟨h1, h2, h3⟩ | ⟨h1, h2⟩
    · exact .inl ⟨h1, h2, by rw [Link.takeUnclean, h3]; simp⟩
    · exact .inr ⟨h1, by rw [Link.takeUnclean, h2]; simp⟩

/-- What the end of `COLLECT` writes: the symbols that fit, the bytes they decode to, the count (R104, R106). -/
theorem State.storeResponse_writes (s : State) (a cap : Nat) (r : List Sym7) :
    let t := s.storeResponse a cap r
    let kept : List Byte := (r.take (8 * cap)).map (·.setWidth 8)
    t = { s with sym := t.sym, symLen := t.symLen, buf := t.buf, res := t.res } ∧
    t.symLen = min r.length (8 * cap) ∧
    t.res = ⟨false, BitVec.ofNat 16 (reportedCount s.cfg cap r.length)⟩ ∧
    (∀ j < t.symLen, some (t.symCell j) = kept[j]?) ∧ (∀ j, t.symLen ≤ j → t.symCell j = s.symCell j) ∧
    (∀ k < t.symLen / 8, some (t.bufByte (a + k)) = (decodeSyms s.cfg kept)[k]?) ∧
    ∀ x, (x < a ∨ a + t.symLen / 8 ≤ x) → t.bufByte x = s.bufByte x := by
  intro t kept
  have ht : t.symLen = min r.length (8 * cap) := by
    show kept.length = _
    simp [kept, Nat.min_comm]
  refine ⟨rfl, ht, rfl, fun j hj => ?_, fun j hj => ?_, fun k hk => ?_, fun x hx => ?_⟩
  · exact symCell_symLoad_of_lt kept s j hj
  · exact symCell_symLoad_of_le kept s j hj
  · exact bufByte_bufWrite_add a (decodeSyms s.cfg kept) (s.symLoad kept) k (by rw [length_decodeSyms]; exact hk)
  · exact bufByte_bufWrite_of_outside a (decodeSyms s.cfg kept) (s.symLoad kept) x
      (by rw [length_decodeSyms]; exact hx)

/-- The end of `COLLECT` keeps the invariant. -/
theorem Inv.storeResponse {s : State} (a cap : Nat) (r : List Sym7) (h : Inv s) (hr : a + cap ≤ 512)
    (hs : 8 * cap ≤ 4096) : Inv (s.storeResponse a cap r) := by
  have hl : ((r.take (8 * cap)).map (·.setWidth 8 : Sym7 → Byte)).length ≤ 8 * cap := by simp
  unfold State.storeResponse
  apply Inv.setRes
  · apply Inv.bufWrite
    · exact h.symLoad _ (by omega)
    · simp only [length_decodeSyms]; omega
  · unfold reportedCount
    split
    · omega
    · split <;> omega

/-- The channel when `COLLECT` begins to read, under TxHealthy: the flag and the flush are on the wire history, the
receive path is clean and idle, nothing is in flight, and only events that overtake the transmitter have been taken
from the agenda (R104, R105). -/
theorem Link.askForResponse_healthy {p : Params} {l : Link} (hi : l.Inv p) (he : l.cfgEn = true)
    (hh : l.txHealthy = true) :
    let k := l.askForResponse p
    k.wire = l.sent ++ (flagSyms p p.flagTx).map .tx ++ [.flushed] ∧ k.rxClean = true ∧
    onlyAmidTaken l.inputs k.inputs ∧
    k.cfgEn = true ∧ k.sending = false ∧ k.canRead = false ∧ k.err = false ∧ k.envSilent = l.envSilent ∧ k.Inv p := by
  intro k
  obtain ⟨h1, h2⟩ := sendSyms_healthy p (flagSyms p p.flagTx) hh
  have hf := follows_sendSyms p (flagSyms p p.flagTx) l
  have hv := inv_sendSyms (flagSyms p p.flagTx) hi he
  obtain ⟨h3, h4, h5, h6⟩ := flush_healthy p (hf.txHealthy.trans hh) hv
  have hk : k.Inv p := inv_askForResponse hi he
  exact ⟨by rw [← h1]; exact h3, h4, h2.trans h6,
    (follows_askForResponse p l).cfgEn.trans he, hk.not_sending h4, rfl, rfl,
    (follows_askForResponse p l).envSilent, hk⟩

end Sys2Proof.Machine
end

