-- ==== Sys2Proof/Laws/PerInstr.lean ====
section
/-! SUPPORT. Per-instruction laws. `TableRow`: the word the encoder gives a well-formed instruction lies in its row of
spec/opcode_table.json, by the row's own match and mask, written out here from the table. -/

namespace Sys2Proof.Laws

/-- The match and the mask of each row of spec/opcode_table.json. -/
def tableRow : Instr → Nat × Nat
  | .sendb _ => (0x01000000, 0xFFFFFF00)
  | .readb => (0x02000000, 0xFFFFFFFF)
  | .flush => (0x03000000, 0xFFFFFFFF)
  | .enc _ _ => (0x10000000, 0xFF000000)
  | .dec _ _ => (0x11000000, 0xFF000000)
  | .sendBytes _ _ => (0x12000000, 0xFF000000)
  | .flagCmd => (0x13000000, 0xFFFFFFFF)
  | .flagTx => (0x14000000, 0xFFFFFFFF)
  | .flagIdle => (0x15000000, 0xFFFFFFFF)
  | .flagSleep => (0x16000000, 0xFFFFFFFF)
  | .collect _ _ => (0x17000000, 0xFF000000)
  | .crcSeed _ => (0x20000000, 0xFF000FFF)
  | .crcUpd _ _ => (0x21000000, 0xFF000000)
  | .crcGet _ => (0x22000000, 0xFF000FFF)
  | .stb _ _ => (0x30000000, 0xFF000F00)
  | .ldb _ => (0x31000000, 0xFF000FFF)
  | .symBit0 => (0x7D, 0xFF)
  | .symBit1 => (0x7F, 0xFF)
  | .flagByteCmd => (0x77, 0xFF)
  | .flagByteTx => (0x88, 0xFF)
  | .flagByteIdle => (0xBB, 0xFF)
  | .flagByteSleep => (0xCC, 0xFF)

/-- A word lies in the row of an instruction, a command word in a row of 32 bits, a symbol in a row of 8. -/
def inRow (i : Instr) : CodeWord → Prop
  | .cw32 w => w &&& BitVec.ofNat 32 (tableRow i).2 = BitVec.ofNat 32 (tableRow i).1
  | .sym8 v => v &&& BitVec.ofNat 8 (tableRow i).2 = BitVec.ofNat 8 (tableRow i).1

namespace TableRow

/-- The encoder's word lies in the instruction's row. -/
def Statement (i : Instr) : Prop := i.WellFormed → inRow i (encode i)

/-- A mask keeps `op` alone: rows of two operands. -/
theorem opMask (op : BitVec 8) (a b : Nat) :
    mkCw op a b &&& 0xFF000000#32 = mkCw op 0 0 := by
  ext i h
  rw [BitVec.getElem_and, getElem_mkCw, getElem_mkCw]
  interval_cases i <;> simp

/-- A mask keeps `op` and `b`: rows whose `b` is zero. -/
theorem opBMask (op : BitVec 8) (a : Nat) :
    mkCw op a 0 &&& 0xFF000FFF#32 = mkCw op 0 0 := by
  ext i h
  rw [BitVec.getElem_and, getElem_mkCw, getElem_mkCw]
  interval_cases i <;> simp

/-- A mask keeps `op` and `b[11:8]`: the row of `STB`, whose immediate has 8 bits. -/
theorem opImmMask (op : BitVec 8) (a : Nat) (v : Byte) :
    mkCw op a v.toNat &&& 0xFF000F00#32 = mkCw op 0 0 := by
  ext i h
  rw [BitVec.getElem_and, getElem_mkCw, getElem_mkCw]
  interval_cases i <;> simp [BitVec.testBit_toNat]

/-- A mask keeps `op`, `a` and `b[11:8]`: the row of `SENDB`. -/
theorem sendbMask (op : BitVec 8) (v : Byte) :
    mkCw op 0 v.toNat &&& 0xFFFFFF00#32 = mkCw op 0 0 := by
  ext i h
  rw [BitVec.getElem_and, getElem_mkCw, getElem_mkCw]
  interval_cases i <;> simp [BitVec.testBit_toNat]

theorem sendb (v : Byte) : Statement (.sendb v) :=
  fun _ => (sendbMask 0x01 v).trans (by show mkCw 0x1 0 0 = 0x01000000#32; decide)
theorem readb : Statement .readb := by
  intro _; show (mkCw 0x2 0 0 &&& 0xFFFFFFFF#32) = 0x02000000#32; decide
theorem flush : Statement .flush := by
  intro _; show (mkCw 0x3 0 0 &&& 0xFFFFFFFF#32) = 0x03000000#32; decide
theorem enc (a n : Nat) : Statement (.enc a n) :=
  fun _ => (opMask 0x10 a n).trans (by show mkCw 0x10 0 0 = 0x10000000#32; decide)
theorem dec (a cap : Nat) : Statement (.dec a cap) :=
  fun _ => (opMask 0x11 a cap).trans (by show mkCw 0x11 0 0 = 0x11000000#32; decide)
theorem sendBytes (a n : Nat) : Statement (.sendBytes a n) :=
  fun _ => (opMask 0x12 a n).trans (by show mkCw 0x12 0 0 = 0x12000000#32; decide)
theorem flagCmd : Statement .flagCmd := by
  intro _; show (mkCw 0x13 0 0 &&& 0xFFFFFFFF#32) = 0x13000000#32; decide
theorem flagTx : Statement .flagTx := by
  intro _; show (mkCw 0x14 0 0 &&& 0xFFFFFFFF#32) = 0x14000000#32; decide
theorem flagIdle : Statement .flagIdle := by
  intro _; show (mkCw 0x15 0 0 &&& 0xFFFFFFFF#32) = 0x15000000#32; decide
theorem flagSleep : Statement .flagSleep := by
  intro _; show (mkCw 0x16 0 0 &&& 0xFFFFFFFF#32) = 0x16000000#32; decide
theorem collect (a cap : Nat) : Statement (.collect a cap) :=
  fun _ => (opMask 0x17 a cap).trans (by show mkCw 0x17 0 0 = 0x17000000#32; decide)
theorem crcSeed (a : Nat) : Statement (.crcSeed a) :=
  fun _ => (opBMask 0x20 a).trans (by show mkCw 0x20 0 0 = 0x20000000#32; decide)
theorem crcUpd (a n : Nat) : Statement (.crcUpd a n) :=
  fun _ => (opMask 0x21 a n).trans (by show mkCw 0x21 0 0 = 0x21000000#32; decide)
theorem crcGet (a : Nat) : Statement (.crcGet a) :=
  fun _ => (opBMask 0x22 a).trans (by show mkCw 0x22 0 0 = 0x22000000#32; decide)
theorem stb (a : Nat) (v : Byte) : Statement (.stb a v) :=
  fun _ => (opImmMask 0x30 a v).trans (by show mkCw 0x30 0 0 = 0x30000000#32; decide)
theorem ldb (a : Nat) : Statement (.ldb a) :=
  fun _ => (opBMask 0x31 a).trans (by show mkCw 0x31 0 0 = 0x31000000#32; decide)
theorem symBit0 : Statement .symBit0 := by
  intro _; show (0x7D#8 &&& 0xFF#8) = 0x7D#8; decide
theorem symBit1 : Statement .symBit1 := by
  intro _; show (0x7F#8 &&& 0xFF#8) = 0x7F#8; decide
theorem flagByteCmd : Statement .flagByteCmd := by
  intro _; show (0x77#8 &&& 0xFF#8) = 0x77#8; decide
theorem flagByteTx : Statement .flagByteTx := by
  intro _; show (0x88#8 &&& 0xFF#8) = 0x88#8; decide
theorem flagByteIdle : Statement .flagByteIdle := by
  intro _; show (0xBB#8 &&& 0xFF#8) = 0xBB#8; decide
theorem flagByteSleep : Statement .flagByteSleep := by
  intro _; show (0xCC#8 &&& 0xFF#8) = 0xCC#8; decide

end TableRow

end Sys2Proof.Laws
end

