-- ==== Sys2Proof/Tests/Slice0.lean ====
section
/-! SUPPORT. The model's own tests. Expected values come from the spec: the worked words and vectors of spec
95_test_vectors.md (E, B, F, K, H and Z rows) and the examples inside the rules. Behind them stand the witnesses: for
each obligation with hypotheses a concrete case that meets them all. -/

namespace Sys2Proof.Tests

open Sys2Proof.Machine

/-! ### States to test on -/

/-- Reset, then bus initialisation (R146). -/
def ready : State := State.reset.onLink (Link.busInit Params.default)

/-- `ready` after a `FLUSH` with nothing in flight: a clean receive path. -/
def clean : State := ready.onLink fun l => { l with rxClean := true }

/-- `s` with the bytes `l` in `BUF` from `a`. -/
def holding (a : Nat) (l : List Byte) (s : State) : State := s.bufWrite a l

/-- `s` with a symbol in `RDR`. -/
def heard (v : Byte) (s : State) : State := s.onLink fun l => { l with rdr := v, rxne := true }

/-- `s` with an environment that delivers the symbols `l` and then falls silent. -/
def hearing (l : List Byte) (s : State) : State := s.withInputs (l.map fun v => .env (.rx v))

/-- `s` without the premise TxHealthy, a symbol in `TDR` and nothing that moves it. -/
def jammed (s : State) : State := s.onLink fun l => { l with txHealthy := false, txe := false, tc := false }

/-- What a step leaves in one part of the state. -/
def after {α : Type} (r : Result) (f : State → α) : Option α :=
  match r with
  | .next t => some (f t)
  | .fault _ => none
  | .refused _ => none

/-- Why a step was refused. -/
def reason (r : Result) : Option Refusal :=
  match r with
  | .next _ => none
  | .fault _ => none
  | .refused q => some q

/-! ### Well-formedness: an ill-formed term for each check -/

theorem test_illFormed_enc : ¬ (Instr.enc 4096 0).WellFormed ∧ ¬ (Instr.enc 0 4096).WellFormed := by decide
theorem test_illFormed_dec : ¬ (Instr.dec 4096 0).WellFormed ∧ ¬ (Instr.dec 0 4096).WellFormed := by decide
theorem test_illFormed_sendBytes :
    ¬ (Instr.sendBytes 4096 0).WellFormed ∧ ¬ (Instr.sendBytes 0 4096).WellFormed := by decide
theorem test_illFormed_collect :
    ¬ (Instr.collect 4096 0).WellFormed ∧ ¬ (Instr.collect 0 4096).WellFormed := by decide
theorem test_illFormed_crcUpd : ¬ (Instr.crcUpd 4096 0).WellFormed ∧ ¬ (Instr.crcUpd 0 4096).WellFormed := by decide
theorem test_illFormed_oneAddress :
    ¬ (Instr.crcSeed 4096).WellFormed ∧ ¬ (Instr.crcGet 4096).WellFormed ∧ ¬ (Instr.stb 4096 0).WellFormed ∧
      ¬ (Instr.ldb 4096).WellFormed := by decide
theorem test_wellFormed_largest : (Instr.collect 4095 4095).WellFormed ∧ (Instr.stb 4095 0xFF).WellFormed := by decide

/-! ### Decoding: words written out bit by bit from R61 and R62, and the vectors E1 to E20 -/

theorem test_decode_sendb : decode (.cw32 0b00000001_000000000000_000001111111) = .ok (.sendb 0x7F) := by decide
theorem test_decode_readb : decode (.cw32 0b00000010_000000000000_000000000000) = .ok .readb := by decide
theorem test_decode_flush : decode (.cw32 0b00000011_000000000000_000000000000) = .ok .flush := by decide
theorem test_decode_enc : decode (.cw32 0b00010000_000000000000_000000000011) = .ok (.enc 0 3) := by decide
theorem test_decode_dec : decode (.cw32 0b00010001_000000010000_000000000010) = .ok (.dec 16 2) := by decide
theorem test_decode_sendBytes : decode (.cw32 0b00010010_000000000000_000000001000) = .ok (.sendBytes 0 8) := by decide
theorem test_decode_flagCmd : decode (.cw32 0b00010011_000000000000_000000000000) = .ok .flagCmd := by decide
theorem test_decode_flagTx : decode (.cw32 0b00010100_000000000000_000000000000) = .ok .flagTx := by decide
theorem test_decode_flagIdle : decode (.cw32 0b00010101_000000000000_000000000000) = .ok .flagIdle := by decide
theorem test_decode_flagSleep : decode (.cw32 0b00010110_000000000000_000000000000) = .ok .flagSleep := by decide
theorem test_decode_collect : decode (.cw32 0b00010111_000100000000_000000000100) = .ok (.collect 0x100 4) := by decide
theorem test_decode_crcSeed : decode (.cw32 0b00100000_000000001000_000000000000) = .ok (.crcSeed 8) := by decide
theorem test_decode_crcUpd : decode (.cw32 0b00100001_000000000001_000000000101) = .ok (.crcUpd 1 5) := by decide
theorem test_decode_crcGet : decode (.cw32 0b00100010_000000000110_000000000000) = .ok (.crcGet 6) := by decide
theorem test_decode_stb : decode (.cw32 0b00110000_000000000000_000001110111) = .ok (.stb 0 0x77) := by decide
theorem test_decode_ldb : decode (.cw32 0b00110001_000010000010_000000000000) = .ok (.ldb 0x082) := by decide

/-- R58, R60: the six named symbols, with the default values. -/
theorem test_decode_symbols :
    decode (.sym8 0b01111101) = .ok .symBit0 ∧ decode (.sym8 0b01111111) = .ok .symBit1 ∧
    decode (.sym8 0b01110111) = .ok .flagByteCmd ∧ decode (.sym8 0b10001000) = .ok .flagByteTx ∧
    decode (.sym8 0b10111011) = .ok .flagByteIdle ∧ decode (.sym8 0b11001100) = .ok .flagByteSleep ∧
    decode (.sym8 0) = .error .unnamedSymbol := by decide

/-- E14, E15, E16, E20. -/
theorem test_decode_refused :
    decode (.cw32 0x00000000) = .error .reservedOp ∧ decode (.cw32 0x02000001) = .error .unusedFieldNotZero ∧
    decode (.cw32 0x0100017F) = .error .unusedFieldNotZero ∧ decode (.cw32 0x04000000) = .error .reservedOp ∧
    decode (.cw32 0x18000000) = .error .reservedOp ∧ decode (.cw32 0x23000000) = .error .reservedOp ∧
    decode (.cw32 0x32000000) = .error .reservedOp ∧ decode (.cw32 0xFF000000) = .error .reservedOp := by decide

/-- The host's two entry points, on a row of each format. -/
theorem test_decodeTableWord :
    decodeTableWord 32 0x17100004 = some (.collect 0x100 4) ∧ decodeTableWord 8 0x7D = some .symBit0 ∧
    decodeTableWord 32 0 = none := by decide

/-- R5: `RTO_CHARS` is about 3 character periods; fractions of them count. -/
theorem test_rtoChars_lawful :
    ({ Params.default with rtoChars := ⟨29, 10⟩ } : Params).Lawful ∧
    ({ Params.default with rtoChars := ⟨7, 2⟩ } : Params).Lawful ∧
    ¬ ({ Params.default with rtoChars := ⟨0, 1⟩ } : Params).Lawful ∧
    ¬ ({ Params.default with rtoChars := ⟨1000, 1⟩ } : Params).Lawful := by decide

/-- R5: the default table of `near_bit1` is the formula |v - 0x7F| < 2 on integers. -/
theorem test_near_default :
    ∀ v : Sym7, Params.default.near v = decide (((v.toNat : Int) - 0x7F).natAbs < 2) := by decide

/-! ### BitChannel -/

/-- B1, and the environment's steps after it. -/
theorem test_sendb_B1 :
    after (exec (.sendb 0x7F) clean) (fun t => (t.link.tdr, t.link.txe, t.link.tc, t.link.rxClean, t.res)) =
      some (0x7F, false, false, false, ⟨true, 0xFFFF⟩) := by decide

/-- B2: the wait runs out, nothing is sent. -/
theorem test_sendb_B2 :
    after (exec (.sendb 0x7D) (jammed ready)) (fun t => (t.link.txe, t.link.wire, t.link.tc)) =
      some (false, [], false) := by decide

/-- B5: the 7-bit mask. -/
theorem test_readb_B5 :
    after (exec .readb (heard 0xFF clean)) (fun t => (t.res, t.link.rxne, t.link.wire)) =
      some (⟨false, 0x007F⟩, false, [.rxTaken 0x7F]) := by decide

/-- B16, its first symbol and what stays on the agenda. -/
theorem test_readb_B16 :
    after (exec .readb (hearing [0x7F, 0x7D] clean)) (fun t => (t.res, t.link.inputs)) =
      some (⟨false, 0x007F⟩, [.env (.rx 0x7D)]) := by decide

/-- B12: after a `SENDB`, `FLUSH` waits for both transmitter steps. -/
theorem test_flush_B12 :
    after (thenExec (exec (.sendb 0x7F) clean) .flush)
        (fun t => (t.link.wire, t.link.tc, t.link.rxne, t.link.err, t.link.rto, t.link.rxClean)) =
      some ([.tx 0x7F, .flushed], true, false, false, false, true) := by decide

/-- B14: the wait runs out; the receive path is emptied all the same. -/
theorem test_flush_B14 :
    after (exec .flush (heard 0x7F (jammed ready))) (fun t => (t.link.rxne, t.link.rxClean, t.link.wire)) =
      some (false, false, [.flushed]) := by decide

/-- R153: of two arrivals, the one that comes while `FLUSH` waits is lost, the one after it is still to come. -/
theorem test_flush_early_arrival :
    after (exec .flush ((jammed ready).onLink fun l =>
        { l with txHealthy := true, tdr := 0x7D, inputs := [.amid (.rx 0x7F), .env (.rx 0x7D)] }))
      (fun t => (t.link.wire, t.link.rxne, t.link.rxClean, t.link.inputs)) =
      some ([.tx 0x7D, .flushed], false, true, [.env (.rx 0x7D)]) := by decide

/-! ### Framer -/

/-- F16. -/
theorem test_enc_F16 :
    after (exec (.enc 0 3) (holding 0 [0xA5, 0x00, 0xFF] ready)) (fun t => (t.symRead, t.symLen, t.res)) =
      some ([0x7F, 0x7D, 0x7F, 0x7D, 0x7D, 0x7F, 0x7D, 0x7F] ++ List.replicate 8 0x7D ++ List.replicate 8 0x7F, 24,
        ⟨false, 24⟩) := by decide +kernel

/-- F18: after F16. -/
theorem test_dec_F18 :
    after (thenExec (exec (.enc 0 3) (holding 0 [0xA5, 0x00, 0xFF] ready)) (.dec 16 8))
      (fun t => (t.bufRead 16 3, (memLookup t.buf 19).isNone, t.res)) =
      some ([0xA5, 0x00, 0xFF], true, ⟨false, 3⟩) := by decide +kernel

/-- F13, F15: the tail is discarded; the argument is masked. -/
theorem test_decode_F13_F15 :
    decodeSyms Params.default (encByte Params.default 0x3C ++ [0x7F, 0x7F, 0x7D, 0x7D, 0x7F]) = [0x3C] ∧
    decByte Params.default (List.replicate 8 0xFF) = 0xFF := by decide

/-- F19: two symbols are still pending, so the history shows six of the eight. -/
theorem test_sendBytes_F19 :
    after (exec (.sendBytes 0 1) (holding 0 [0x07] clean)) (fun t => (t.link.sent, t.link.rxClean, t.res)) =
      some ([0x7F, 0x7F, 0x7F, 0x7D, 0x7D, 0x7D, 0x7D, 0x7D].map .tx, false, ⟨true, 0xFFFF⟩) := by decide +kernel

/-- F26: the rows of F6. -/
theorem test_flags_F26 :
    after (exec .flagCmd ready) (·.link.sent) =
      some ([0x7F, 0x7F, 0x7F, 0x7D, 0x7F, 0x7F, 0x7F, 0x7D].map .tx) ∧
    after (exec .flagTx ready) (·.link.sent) =
      some ([0x7D, 0x7D, 0x7D, 0x7F, 0x7D, 0x7D, 0x7D, 0x7F].map .tx) ∧
    after (exec .flagIdle ready) (·.link.sent) =
      some ([0x7F, 0x7F, 0x7D, 0x7F, 0x7F, 0x7F, 0x7D, 0x7F].map .tx) ∧
    after (exec .flagSleep ready) (·.link.sent) =
      some ([0x7D, 0x7D, 0x7F, 0x7F, 0x7D, 0x7D, 0x7F, 0x7F].map .tx) := by decide +kernel

/-- F27: a raw flag. -/
theorem test_flags_F27 :
    after (exec .flagTx { ready with cfg := { Params.default with flagEncoded := false } }) (·.link.sent) =
      some [.tx 0x88] := by decide

/-- The 32 symbols of F21. -/
def burstF21 : List Byte := encodeBytes Params.default [0x04, 0x11, 0x65, 0x98]

/-- The 27 symbols of F22. -/
def burstF22 : List Byte := encodeBytes Params.default [0xC3, 0x5A, 0xFF] ++ [0x7F, 0x7D, 0x7F]

/-- F21. -/
theorem test_collect_F21 :
    after (exec (.collect 0x100 4) (hearing burstF21 ready)) (fun t => (t.bufRead 0x100 4, t.symLen, t.res)) =
      some ([0x04, 0x11, 0x65, 0x98], 32, ⟨false, 4⟩) := by decide +kernel

/-- F22, with both values of `OVERREAD_COUNT`. -/
theorem test_collect_F22 :
    after (exec (.collect 0x040 2) (hearing burstF22 ready)) (fun t => (t.bufRead 0x040 2, t.symLen, t.res)) =
      some ([0xC3, 0x5A], 16, ⟨false, 2⟩) ∧
    after (exec (.collect 0x040 2) (hearing burstF22
        { ready with cfg := { Params.default with overreadCount := .total } })) (·.res) = some ⟨false, 3⟩ := by
  decide +kernel

/-! ### CRC16 -/

/-- K25, K26 and K33, in both orders of the data bits. -/
theorem test_crcBytes :
    crcBytes .msbFirst 0 [0x07, 0x30, 0, 0, 0] = 0x4161 ∧ crcBytes .lsbFirst 0 [0x07, 0x30, 0, 0, 0] = 0x5D03 ∧
    crcBytes .lsbFirst 0 [0x31, 0x32, 0x33, 0x34, 0x35, 0x36, 0x37, 0x38, 0x39] = 0xBCDD ∧
    crcBytes .msbFirst 0xBEEF [0x12, 0x34, 0x56] = 0x538B ∧ crcBytes .lsbFirst 0xBEEF [0x12, 0x34, 0x56] = 0x07CB := by
  decide +kernel

/-- K36: the low byte first. -/
theorem test_crcSeed_K36 :
    after (exec (.crcSeed 4) (holding 4 [0x11, 0x80] State.reset)) (fun t => (t.crc, t.crcValid)) =
      some (0x8011, true) := by decide

/-- K37. -/
theorem test_crcUpd_K37 :
    after (exec (.crcUpd 1 5) { holding 1 [0x07, 0x30, 0, 0, 0] ready with crc := 0, crcValid := true }) (·.crc) =
      some 0x4161 := by decide +kernel

/-- K39. -/
theorem test_crcGet_K39 :
    after (exec (.crcGet 6) { ready with crc := 0x4161, crcValid := true }) (fun t => (t.bufRead 6 2, t.crc)) =
      some ([0x61, 0x41], 0x4161) := by decide

/-- K40, K41. -/
theorem test_crc_refused :
    reason (exec (.crcUpd 0 1) State.reset) = some .crcNotSeeded ∧
    reason (exec (.crcGet 0) State.reset) = some .crcNotSeeded ∧
    reason (exec (.crcSeed 0x1FF) State.reset) = some .operandOutOfRange ∧
    (after (exec (.crcSeed 0x1FE) State.reset) (·.crcValid)) = some true := by decide

/-! ### Host buffer, reset, refusals -/

/-- H1: `STB` overwrites the cell and keeps the memory's form. -/
theorem test_stb_H1 :
    after (exec (.stb 0x010 0x77) (holding 0x0F [1, 2, 3] State.reset)) (fun t => (t.buf, t.res)) =
      some ([(0x0F, 1), (0x10, 0x77), (0x11, 3)], ⟨true, 0xFFFF⟩) := by decide

/-- H2. -/
theorem test_ldb_H2 : after (exec (.ldb 6) (holding 6 [0x61] State.reset)) (·.res) = some ⟨false, 0x0061⟩ := by decide

/-- E17 to E19: out of range, and the nearest accepted forms. -/
theorem test_bounds :
    reason (exec (.sendBytes 0x1FF 2) ready) = some .operandOutOfRange ∧ bufRange 0x1FE 2 = true ∧
    reason (exec (.collect 0 513) ready) = some .operandOutOfRange ∧ bufRange 0 512 = true ∧ symRange 512 = true ∧
    reason (exec (.stb 0x200 0) ready) = some .operandOutOfRange ∧ bufAddr 0x1FF = true := by decide

/-- Z1, Z2, F28: after reset. -/
theorem test_reset :
    State.reset.res = ⟨true, 0xFFFF⟩ ∧ reason (exec .flush State.reset) = some .channelNotReady ∧
    reason (exec (.sendBytes 0 1) State.reset) = some .channelNotReady ∧
    after (exec (.enc 0 1) State.reset) (·.symLen) = some 8 := by decide

/-- Z3, by steps of the machine: bus initialisation, then the word of `FLUSH`. -/
theorem test_step_Z3 :
    after (step (State.reset.withInputs [.busInit])) (·.link.cfgEn) = some true ∧
    after (step (ready.withFetchWord 32 0x03000000)) (fun t => (t.link.rxClean, t.link.inputs)) = some (true, []) := by
  decide

/-! ### Symbols on the wire -/

/-- R34: each named symbol is latched as its value. -/
theorem test_symbols_latched :
    after (exec .symBit0 ready) (fun t => (t.link.rdr, t.link.rxne)) = some (0x7D, true) ∧
    after (exec .symBit1 ready) (fun t => (t.link.rdr, t.link.rxne)) = some (0x7F, true) ∧
    after (exec .flagByteCmd ready) (fun t => (t.link.rdr, t.link.rxne)) = some (0x77, true) ∧
    after (exec .flagByteTx ready) (fun t => (t.link.rdr, t.link.rxne)) = some (0x88, true) ∧
    after (exec .flagByteIdle ready) (fun t => (t.link.rdr, t.link.rxne)) = some (0xBB, true) ∧
    after (exec .flagByteSleep ready) (fun t => (t.link.rdr, t.link.rxne)) = some (0xCC, true) := by decide

/-- R34: an overrun. -/
theorem test_symbol_overrun :
    after (exec .symBit0 (heard 0x7F ready)) (fun t => (t.link.err, t.link.rxne)) = some (true, true) := by decide

/-! ### Witnesses -/

/-- `clean` with everything its bus initialisation and `FLUSH` leave, and an agenda. -/
theorem witness_inv (is : List Input) (h b : Bool) :
    Inv ((clean.withInputs is).onLink fun l => { l with txHealthy := h, envSilent := b }) where
  lawful := by show Params.default.Lawful; decide
  idle := rfl
  link := ⟨rfl, fun _ => rfl, fun h => absurd (show true = false from h) (by decide), fun _ => ⟨rfl, rfl⟩⟩
  bufWf := rfl
  symWf := rfl
  symLenBound := Nat.zero_le _
  symValid := fun i hi => absurd hi (Nat.not_lt_zero i)
  failMeans := fun _ => rfl
  valMeans := fun h => absurd (show true = false from h) (by decide)

/-- The same machine with the other count on an over-read. -/
theorem witness_inv_total (is : List Input) :
    Inv { clean.withInputs is with cfg := { Params.default with overreadCount := .total } } :=
  let h := witness_inv is true true
  ⟨by show ({ Params.default with overreadCount := .total } : Params).Lawful; decide, h.idle,
    ⟨h.link.1, h.link.2, h.link.3, h.link.4⟩, h.bufWf, h.symWf, h.symLenBound, h.symValid, h.failMeans, h.valMeans⟩

/-- An idle block with a ready channel and a seeded CRC accepts whatever is in range. -/
theorem accepted_of {i : Instr} {s : State} (hb : s.busy = false) (hr : ¬ outOfRange i) (he : s.link.cfgEn = true)
    (hv : s.crcValid = true) : Accepted i s := ⟨hb, hr, fun _ => he, fun _ => hv⟩

/-- `clean`, seeded. -/
def seeded : State := { clean with crcValid := true }

theorem witness_DecodeInvertsEncode :
    (Instr.collect 4095 4095).WellFormed ∧ (Instr.stb 4095 0xFF).WellFormed ∧ Instr.symBit0.WellFormed ∧
    [Params.default.symBit0, Params.default.symBit1, Params.default.flagCmd, Params.default.flagTx,
      Params.default.flagIdle, Params.default.flagSleep].Nodup := by decide

theorem witness_EncodeInvertsDecode :
    decodeWith Params.default (.cw32 0x17FFFFFF) = .ok (.collect 4095 4095) ∧
    decodeWith Params.default (.sym8 0x7D) = .ok .symBit0 := by decide

/-- One word for each clause, the last value before an accepted one or the first after. -/
theorem witness_MalformedWordsRefused :
    (∃ s : State, s.link.inputs = [.word (.cw32 0x32000000)]) ∧
    (0x32000000#32).toNat / 2 ^ 24 ∉
      [0x01, 0x02, 0x03, 0x10, 0x11, 0x12, 0x13, 0x14, 0x15, 0x16, 0x17, 0x20, 0x21, 0x22, 0x30, 0x31] ∧
    ((0x16000001#32).toNat / 2 ^ 24 = 0x16 ∧ (0x16000001#32).toNat % 2 ^ 12 ≠ 0) ∧
    ((0x02001000#32).toNat / 2 ^ 24 = 0x02 ∧ (0x02001000#32).toNat / 2 ^ 12 % 2 ^ 12 ≠ 0) ∧
    ((0x01000100#32).toNat / 2 ^ 24 = 0x01 ∧ 256 ≤ (0x01000100#32).toNat % 2 ^ 12) ∧
    ((0x31000001#32).toNat / 2 ^ 24 = 0x31 ∧ (0x31000001#32).toNat % 2 ^ 12 ≠ 0) ∧
    ((0x30000100#32).toNat / 2 ^ 24 = 0x30 ∧ 256 ≤ (0x30000100#32).toNat % 2 ^ 12) :=
  ⟨⟨ready.withInputs [.word (.cw32 0x32000000)], rfl⟩, by decide⟩

theorem witness_StepRunsDecodedWord :
    ∃ s : State, s.link.inputs = [.word (.cw32 0x31000000)] ∧ decodeWith s.cfg (.cw32 0x31000000) = .ok (.ldb 0) :=
  ⟨ready.withInputs [.word (.cw32 0x31000000)], rfl, by decide⟩

theorem witness_FetchWordRunsInstruction :
    ((Instr.ldb 4095).WellFormed ∧ encode (.ldb 4095) = .cw32 0x31FFF000) ∧
    (Instr.symBit1.WellFormed ∧ encodeWith State.reset.cfg .symBit1 = .sym8 0x7F) ∧
    encodeWith { Params.default with symBit1 := 0x7E } .symBit1 = .sym8 0x7E := by decide

/-- A state with the invariant, a step that answers a next state, and no power-on at the head of the agenda. -/
theorem witness_StepKeepsInv :
    ∃ s t : State, Inv s ∧ step s = .next t ∧ ∀ rest, s.link.inputs ≠ .powerOn :: rest :=
  ⟨_, _, witness_inv [.env .rto] true true, rfl, fun _ h => by simp [clean, ready] at h⟩

theorem witness_WireHistoryOnlyGrows :
    ∃ s t : State, step s = .next t ∧ ∀ rest, s.link.inputs ≠ .powerOn :: rest :=
  ⟨clean, clean, rfl, fun _ h => by cases h⟩

/-- A step, and an instruction that does not transmit, both with a symbol in `TDR`. -/
theorem witness_NoSymbolLost :
    (∃ s t : State, s.link.symbolsSent = [0x7D] ∧ step s = .next t ∧ (∀ rest, s.link.inputs ≠ .powerOn :: rest) ∧
      ∀ rest, s.link.inputs ≠ .busInit :: rest) ∧
    ∃ s t : State, s.link.symbolsSent = [0x7D] ∧ exec .flush s = .next t ∧ ¬ transmits .flush :=
  ⟨⟨ready.onLink fun l => { l with tdr := 0x7D, txe := false, tc := false }, _, rfl, rfl,
      fun _ h => absurd h (List.cons_ne_nil _ _).symm, fun _ h => absurd h (List.cons_ne_nil _ _).symm⟩,
    ⟨ready.onLink fun l => { l with tdr := 0x7D, txe := false, tc := false }, _, rfl, rfl, by simp [transmits]⟩⟩

theorem witness_ParametersNeverChange : ∃ s t : State, step s = .next t := ⟨clean, clean, rfl⟩

theorem witness_PowerOnMeetsInv : Params.default.Lawful := by decide

theorem witness_ResetValues : ∃ s : State, s.link.inputs = [.powerOn] := ⟨clean.withInputs [.powerOn], rfl⟩

/-- The three outcomes of an instruction outside the CRC unit. -/
theorem witness_CrcUnitIsolated :
    (∃ t, exec (.stb 511 0) ready = .next t) ∧ exec (.stb 512 0) ready = .refused .operandOutOfRange ∧
    exec (.collect 0 0) (ready.onLink fun l => { l with envSilent := false }) = .fault .collectNeverEnds :=
  ⟨⟨_, rfl⟩, rfl, rfl⟩

theorem witness_ResultRegisterWriters : ∃ t, exec (.ldb 511) ready = .next t := ⟨_, rfl⟩

theorem witness_MemoryWriters : ∃ t, exec (.enc 0 0) ready = .next t := ⟨_, rfl⟩

theorem witness_RefusedExactlyWhen : ∃ s : State, s.link.inputs = [.word (.cw32 0x02000000)] :=
  ⟨ready.withInputs [.word (.cw32 0x02000000)], rfl⟩

theorem witness_AcceptanceAfterReset :
    touchesWire .readb ∧ ¬ outOfRange (.stb 511 0) ∧ ¬ outOfRange (.crcGet 510) ∧
    ∃ t, exec (.crcSeed 510) (State.atPowerOn Params.default 0) = .next t :=
  ⟨.inr (.inl rfl), by simp [outOfRange], by simp [outOfRange], _, rfl⟩

theorem witness_OnlyEndlessCollectDoesNotReturn :
    exec (.collect 0 512) (ready.onLink fun l => { l with envSilent := false }) = .fault .collectNeverEnds ∧
    ready.link.envSilent = true := ⟨rfl, rfl⟩

theorem witness_BusInitialisation : ∃ s : State, s.link.inputs = [.busInit] ∧ s.busy = false :=
  ⟨State.reset.withInputs [.busInit], rfl, rfl⟩

/-- The three cases of E-SHIFT. -/
theorem witness_ShiftStep :
    (∃ s : State, s.link.inputs = [.env .shift] ∧ s.link.txe = false ∧ s.link.tsrBusy = false) ∧
    (∃ s : State, s.link.inputs = [.env .shift] ∧ s.link.txe = true) ∧
    ∃ s : State, s.link.inputs = [] ∧ s.link.txHealthy = true ∧ s.link.txe = false ∧ s.link.tsrBusy = false :=
  ⟨⟨(jammed ready).withInputs [.env .shift], rfl, rfl, rfl⟩, ⟨ready.withInputs [.env .shift], rfl, rfl⟩,
    ⟨ready.onLink fun l => { l with txe := false }, rfl, rfl, rfl, rfl⟩⟩

/-- The cases of E-DONE: with and without a symbol behind it, into an empty and an occupied receiver. -/
theorem witness_DoneStep :
    (∃ s : State, s.link.inputs = [.env (.done 0xFF)] ∧ s.link.tsrBusy = true ∧ s.link.txe = true ∧
      s.link.rxne = false) ∧
    (∃ s : State, s.link.inputs = [.env (.done 0xFF)] ∧ s.link.tsrBusy = true ∧ s.link.txe = false ∧
      s.link.rxne = true) ∧
    ∃ s : State, s.link.inputs = [.env (.done 0xFF)] ∧ s.link.tsrBusy = false :=
  ⟨⟨(ready.onLink fun l => { l with tsrBusy := true, tc := false }).withInputs [.env (.done 0xFF)], rfl, rfl, rfl, rfl⟩,
    ⟨((heard 0 (jammed ready)).onLink fun l => { l with tsrBusy := true }).withInputs [.env (.done 0xFF)],
      rfl, rfl, rfl, rfl⟩,
    ⟨ready.withInputs [.env (.done 0xFF)], rfl, rfl⟩⟩

theorem witness_ReceiveStep :
    (∃ s : State, s.link.inputs = [.env (.rx 0xFF)] ∧ s.link.cfgEn = true ∧ s.link.rxne = false) ∧
    (∃ s : State, s.link.inputs = [.env (.rx 0xFF)] ∧ s.link.cfgEn = true ∧ s.link.rxne = true) ∧
    ∃ s : State, s.link.inputs = [.env (.rx 0xFF)] ∧ s.link.cfgEn = false :=
  ⟨⟨hearing [0xFF] ready, rfl, rfl, rfl⟩, ⟨hearing [0xFF] (heard 0 ready), rfl, rfl, rfl⟩,
    ⟨hearing [0xFF] State.reset, rfl, rfl⟩⟩

theorem witness_TimeoutAndErrorSteps :
    (∃ s : State, s.link.inputs = [.env .rto] ∧ s.link.cfgEn = true) ∧
    (∃ s : State, s.link.inputs = [.env .rto] ∧ s.link.cfgEn = false) ∧
    (∃ s : State, s.link.inputs = [.env .err] ∧ s.link.cfgEn = true) ∧
    ∃ s : State, s.link.inputs = [.env .err] ∧ s.link.cfgEn = false :=
  ⟨⟨ready.withInputs [.env .rto], rfl, rfl⟩, ⟨State.reset.withInputs [.env .rto], rfl, rfl⟩,
    ⟨ready.withInputs [.env .err], rfl, rfl⟩, ⟨State.reset.withInputs [.env .err], rfl, rfl⟩⟩

theorem witness_SymbolsArrive :
    (ready.link.cfgEn = true ∧ ready.link.rxne = false) ∧
    ((heard 0 ready).link.cfgEn = true ∧ (heard 0 ready).link.rxne = true) ∧ State.reset.link.cfgEn = false := by decide

theorem witness_BitSymbolsReadBack :
    clean.cfg.Lawful ∧ clean.busy = false ∧ clean.link.cfgEn = true ∧ clean.link.rxne = false ∧
    clean.link.rxClean = true := by decide

theorem witness_SendbFillsFreeBuffer : Accepted (.sendb 0xFF) seeded ∧ seeded.link.txe = true :=
  ⟨accepted_of rfl (by simp [outOfRange]) rfl rfl, rfl⟩

/-- With both buffers of the transmitter full, and an arrival in the wait. -/
theorem witness_SendbUnderTxHealthy :
    ∃ s : State, Accepted (.sendb 0xFF) s ∧ s.link.txHealthy = true ∧ s.link.txe = false ∧ s.link.tsrBusy = true ∧
      s.link.inputs = [.amid (.rx 0)] :=
  ⟨seeded.onLink fun l =>
      { l with txe := false, tsrBusy := true, tc := false, rxClean := false, inputs := [.amid (.rx 0)] },
    accepted_of rfl (by simp [outOfRange]) rfl rfl, rfl, rfl, rfl, rfl⟩

theorem witness_SendbAbortsSilently :
    ∃ s : State, Accepted (.sendb 0xFF) s ∧ s.link.txHealthy = false ∧ s.link.txe = false ∧
      hostNext s.link.inputs = true :=
  ⟨jammed seeded, accepted_of rfl (by simp [outOfRange]) rfl rfl, rfl, rfl, rfl⟩

theorem witness_ReadbTakesBufferedSymbol :
    ∃ s : State, Accepted .readb s ∧ s.link.rxClean = true ∧ s.link.rxne = true :=
  ⟨heard 0xFF seeded, accepted_of rfl (by simp [outOfRange]) rfl rfl, rfl, rfl⟩

theorem witness_ReadbFailsOnTimeout :
    ∃ s : State, Accepted .readb s ∧ s.link.rxClean = true ∧ s.link.rxne = false ∧ s.link.rto = true :=
  ⟨seeded.onLink fun l => { l with rto := true }, accepted_of rfl (by simp [outOfRange]) rfl rfl, rfl, rfl, rfl⟩

theorem witness_ReadbWithoutTime :
    (∃ s : State, Inv s ∧ Accepted .readb s ∧ s.link.rxClean = true ∧ s.link.rxne = false ∧ s.link.rto = false ∧
      s.link.inputs = [.env (.rx 0xFF)]) ∧
    ∃ s : State, Inv s ∧ Accepted .readb s ∧ s.link.rxClean = true ∧ s.link.rxne = false ∧ s.link.rto = false ∧
      hostNext s.link.inputs = true ∧ s.link.envSilent = true :=
  ⟨⟨_, witness_inv [.env (.rx 0xFF)] true true, ⟨rfl, by simp [outOfRange], fun _ => rfl, by simp⟩, rfl, rfl, rfl, rfl⟩,
    ⟨_, witness_inv [] true true, ⟨rfl, by simp [outOfRange], fun _ => rfl, by simp⟩, rfl, rfl, rfl, rfl, rfl⟩⟩

theorem witness_ReadbEndsByBudget :
    ∃ s : State, Inv s ∧ Accepted .readb s ∧ s.link.rxClean = true ∧ s.link.rxne = false ∧ s.link.rto = false ∧
      s.link.inputs = List.replicate s.cfg.rxWaitTicks (.env .tick) ++ [.env (.rx 0)] :=
  ⟨_, witness_inv (List.replicate Params.default.rxWaitTicks (.env .tick) ++ [.env (.rx 0)]) true true,
    ⟨rfl, by simp [outOfRange], fun _ => rfl, by simp⟩, rfl, rfl, rfl, rfl⟩

theorem witness_ReadbResultRange : Accepted .readb seeded := accepted_of rfl (by simp [outOfRange]) rfl rfl

theorem witness_FlushEmptiesReceivePath : Accepted .flush seeded ∧ seeded.link.tc = true :=
  ⟨accepted_of rfl (by simp [outOfRange]) rfl rfl, rfl⟩

theorem witness_FlushUnderTxHealthy : ∃ s : State, Inv s ∧ Accepted .flush s ∧ s.link.txHealthy = true :=
  ⟨_, witness_inv [] true true, ⟨rfl, by simp [outOfRange], fun _ => rfl, by simp⟩, rfl⟩

/-- Two arrivals in the wait, one behind it. -/
theorem witness_FlushLosesEarlyArrivals :
    ∃ s : State, Inv s ∧ Accepted .flush s ∧ s.link.txHealthy = true ∧ s.link.tc = false ∧
      s.link.inputs = [0x7F, 0x7D].map (fun v => .amid (.rx v)) ++ [.env (.rx 0x7F)] ∧
      ∀ e more, [Input.env (.rx 0x7F)] ≠ .amid e :: more :=
  ⟨_, (witness_inv [.amid (.rx 0x7F), .amid (.rx 0x7D), .env (.rx 0x7F)] true true).onLink
      (fun l => { l with txe := false, tc := false, rxClean := false })
      ⟨rfl, fun h => absurd h Bool.false_ne_true, fun h => absurd (show true = false from h) (by decide),
        fun _ => ⟨rfl, rfl⟩⟩,
    ⟨rfl, by simp [outOfRange], fun _ => rfl, by simp⟩, rfl, rfl, rfl, fun _ _ h => by cases h⟩

theorem witness_FlushTimesOut :
    ∃ s : State, Accepted .flush s ∧ s.link.txHealthy = false ∧ s.link.tc = false ∧ hostNext s.link.inputs = true :=
  ⟨jammed seeded, accepted_of rfl (by simp [outOfRange]) rfl rfl, rfl, rfl, rfl⟩

theorem witness_EncodeSymbols : (7 : Nat) < 8 := by decide

theorem witness_DecodeGroupsOfEight :
    (List.replicate 15 (0 : Byte)).length = 15 ∧ (List.replicate 7 (0 : Byte)).length = 7 := by decide

theorem witness_CodecRoundTrip : Params.default.Lawful := by decide

/-- The largest ranges that are accepted. -/
theorem witness_EncFillsSymbolMemory : Accepted (.enc 0 512) seeded ∧ Accepted (.enc 512 0) seeded :=
  ⟨accepted_of rfl (by simp [outOfRange]) rfl rfl, accepted_of rfl (by simp [outOfRange]) rfl rfl⟩

theorem witness_DecStoresDecodedBytes : Accepted (.dec 0 512) seeded ∧ Accepted (.dec 512 0) seeded :=
  ⟨accepted_of rfl (by simp [outOfRange]) rfl rfl, accepted_of rfl (by simp [outOfRange]) rfl rfl⟩

theorem witness_EncThenDecCopies :
    seeded.cfg.Lawful ∧ Accepted (.enc 0 512) seeded ∧ Accepted (.dec 0 512) seeded :=
  ⟨by show Params.default.Lawful; decide, witness_EncFillsSymbolMemory.1, witness_DecStoresDecodedBytes.1⟩

theorem witness_TransmittersTouchOnlyTheChannel :
    Accepted (.sendb 0) seeded ∧ Accepted (.sendBytes 0 512) seeded ∧ Accepted .flagCmd seeded ∧
    Accepted .flagTx seeded ∧ Accepted .flagIdle seeded ∧ Accepted .flagSleep seeded := by
  refine ⟨?_, ?_, ?_, ?_, ?_, ?_⟩ <;> exact accepted_of rfl (by simp [outOfRange]) rfl rfl

theorem witness_SendBytesUnderTxHealthy : Accepted (.sendBytes 510 2) seeded ∧ seeded.link.txHealthy = true :=
  ⟨accepted_of rfl (by simp [outOfRange]) rfl rfl, rfl⟩

theorem witness_SendBytesSplits : Accepted (.sendBytes 0 (511 + 1)) seeded :=
  accepted_of rfl (by simp [outOfRange]) rfl rfl

theorem witness_FlagsUnderTxHealthy :
    Accepted .flagSleep seeded ∧ seeded.link.txHealthy = true ∧ seeded.cfg.flagEncoded = true ∧
    { seeded with cfg := { seeded.cfg with flagEncoded := false } }.cfg.flagEncoded = false :=
  ⟨accepted_of rfl (by simp [outOfRange]) rfl rfl, rfl, rfl, rfl⟩

theorem witness_FlagCommandIsFirstByte :
    ∃ s : State, s.cfg.flagEncoded = true ∧ s.bufByte 511 = s.cfg.flagCmd ∧ Accepted (.sendBytes 511 (0 + 1)) s :=
  ⟨holding 511 [0x77] seeded, rfl, rfl, accepted_of rfl (by simp [outOfRange]) rfl rfl⟩

/-- Both ends of the burst: an over-read of no capacity, a response that does not fill a byte, one that fills the capacity
just, and an over-read with the other count. -/
theorem witness_CollectUnderTxHealthy :
    (∃ s : State, Inv s ∧ Accepted (.collect 512 0) s ∧ s.link.txHealthy = true ∧ s.link.envSilent = true ∧
      s.link.inputs = [0xFF].map (fun v => .env (.rx v)) ++ [] ∧ hostNext [] = true ∧
      s.cfg.overreadCount = .stored) ∧
    (∃ s : State, Inv s ∧ Accepted (.collect 511 1) s ∧ s.link.txHealthy = true ∧ s.link.envSilent = true ∧
      s.link.inputs = [0xFF].map (fun v => .env (.rx v)) ++ [.env .rto]) ∧
    (∃ s : State, Inv s ∧ Accepted (.collect 511 1) s ∧ s.link.txHealthy = true ∧ s.link.envSilent = true ∧
      s.link.inputs = (List.replicate (8 * 1) 0x7F).map (fun v => .env (.rx v)) ++ [.env .rto]) ∧
    ∃ s : State, Inv s ∧ Accepted (.collect 511 1) s ∧ s.link.txHealthy = true ∧ s.link.envSilent = true ∧
      s.link.inputs = (List.replicate (8 * 1 + 1) 0x7F).map (fun v => .env (.rx v)) ++ [.env .rto] ∧
      s.cfg.overreadCount = .total :=
  ⟨⟨_, witness_inv [.env (.rx 0xFF)] true true, ⟨rfl, by simp [outOfRange], fun _ => rfl, by simp⟩,
      rfl, rfl, rfl, rfl, rfl⟩,
    ⟨_, witness_inv [.env (.rx 0xFF), .env .rto] true true, ⟨rfl, by simp [outOfRange], fun _ => rfl, by simp⟩,
      rfl, rfl, rfl⟩,
    ⟨_, witness_inv ((List.replicate (8 * 1) 0x7F).map (fun v => .env (.rx v)) ++ [.env .rto]) true true,
      ⟨rfl, by simp [outOfRange], fun _ => rfl, by simp⟩, rfl, rfl, rfl⟩,
    ⟨_, witness_inv_total ((List.replicate (8 * 1 + 1) 0x7F).map (fun v => .env (.rx v)) ++ [.env .rto]),
      ⟨rfl, by simp [outOfRange], fun _ => rfl, by simp⟩, rfl, rfl, rfl, rfl⟩⟩

/-- The largest and the smallest capacity, and a state with every kind of event on the agenda and nothing that moves the
transmitter. -/
theorem witness_CollectReturnsIfSilent :
    (Accepted (.collect 0 512) seeded ∧ Accepted (.collect 512 0) seeded ∧ seeded.link.envSilent = true) ∧
    ∃ s : State, Accepted (.collect 0 512) s ∧ s.link.envSilent = true ∧ s.link.txHealthy = false ∧
      s.link.inputs = [.env .shift, .env (.done 0), .env (.rx 0x7F), .env .rto, .env .err, .env .tick, .powerOn] :=
  ⟨⟨accepted_of rfl (by simp [outOfRange]) rfl rfl, accepted_of rfl (by simp [outOfRange]) rfl rfl, rfl⟩,
    ⟨(jammed seeded).withInputs
        [.env .shift, .env (.done 0), .env (.rx 0x7F), .env .rto, .env .err, .env .tick, .powerOn],
      accepted_of rfl (by simp [outOfRange]) rfl rfl, rfl, rfl, rfl⟩⟩

theorem witness_CollectNeverEndsIfNeverSilent :
    ∃ s : State, Inv s ∧ Accepted (.collect 0 512) s ∧ s.link.txHealthy = true ∧ s.link.envSilent = false ∧
      s.link.inputs = [0xFF].map (fun v => .env (.rx v)) ++ [] ∧ hostNext [] = true :=
  ⟨_, witness_inv [.env (.rx 0xFF)] true false, ⟨rfl, by simp [outOfRange], fun _ => rfl, by simp⟩,
    rfl, rfl, rfl, rfl⟩

theorem witness_CrcIncremental : Accepted (.crcUpd 0 (511 + 1)) seeded :=
  accepted_of rfl (by simp [outOfRange]) rfl rfl

theorem witness_CrcAlgebra : ([0xFF] : List Byte).length = ([0x00] : List Byte).length := rfl

theorem witness_CrcSeedLoadsSeed : Accepted (.crcSeed 510) seeded ∧ Accepted (.crcSeed 0) seeded ∧ 512 < 511 + 2 ∧
    4095 < 4096 :=
  ⟨accepted_of rfl (by simp [outOfRange]) rfl rfl, accepted_of rfl (by simp [outOfRange]) rfl rfl, by decide, by decide⟩

theorem witness_CrcUpdFoldsBytes : Accepted (.crcUpd 511 1) seeded ∧ Accepted (.crcUpd 512 0) seeded :=
  ⟨accepted_of rfl (by simp [outOfRange]) rfl rfl, accepted_of rfl (by simp [outOfRange]) rfl rfl⟩

theorem witness_CrcGetStoresRegister :
    Accepted (.crcGet 510) seeded ∧ 512 < 511 + 2 ∧ State.reset.crcValid = false ∧ 4095 < 4096 :=
  ⟨accepted_of rfl (by simp [outOfRange]) rfl rfl, by decide, rfl, by decide⟩

/-- With the channel not ready. -/
theorem witness_StbStoresByte : Accepted (.stb 511 0xFF) State.reset ∧ 512 ≤ 512 :=
  ⟨⟨rfl, by simp [outOfRange], by simp [touchesWire], by simp⟩, by decide⟩

theorem witness_LdbLoadsByte : Accepted (.ldb 511) State.reset ∧ 512 ≤ 512 :=
  ⟨⟨rfl, by simp [outOfRange], by simp [touchesWire], by simp⟩, by decide⟩

end Sys2Proof.Tests
end

/-! What one instruction and one step can do, each said once by an inversion lemma; that both keep the parameters and
the invariant; and what the waits of `SENDB`, `READB` and `FLUSH` come to in the cases of spec 00_scope.md rule R9. -/

namespace Sys2Proof.Machine

/-! ### What an instruction can do -/

/-- What an instruction that answers a next state does to the state it runs in, with the bounds that its acceptance
has checked. -/
inductive Effect (s : State) : State → Prop
  /-- a symbol arrives (R34) -/
  | arrives (v : Byte) : Effect s (s.onLink (Link.rx v))
  /-- symbols are handed to the transmitter (R75, R86) -/
  | sends (syms : List Byte) (ready : s.link.cfgEn = true) : Effect s (s.onLink (Link.sendSyms s.cfg syms))
  /-- `READB` (R78, R79) -/
  | reads (ready : s.link.cfgEn = true) :
      Effect s { s with link := (s.link.readb s.cfg).2, res := (s.link.readb s.cfg).1 }
  /-- `FLUSH` (R83) -/
  | flushes (ready : s.link.cfgEn = true) : Effect s (s.onLink (Link.flush s.cfg))
  /-- `COLLECT` (R104) -/
  | collects (a cap : Nat) (r : List Sym7 × Link) (ready : s.link.cfgEn = true) (bytes : a + cap ≤ 512)
      (symbols : 8 * cap ≤ 4096) (response : (s.link.askForResponse s.cfg).response s.cfg = some r) :
      Effect s ({ s with link := r.2 }.storeResponse a cap r.1)
  /-- `SYM` is filled and the number of its symbols reported (R96) -/
  | encodes (l : List Byte) (v : Nat) (symbols : l.length ≤ 4096) (count : v = l.length) :
      Effect s ((s.symLoad l).setRes v)
  /-- bytes are stored and their number reported (R97) -/
  | decodes (a : Nat) (l : List Byte) (bytes : a + l.length ≤ 512) : Effect s ((s.bufWrite a l).setRes l.length)
  /-- bytes are stored and nothing is reported (R118, R122) -/
  | stores (a : Nat) (l : List Byte) (bytes : a + l.length ≤ 512) : Effect s (s.bufWrite a l)
  /-- a byte is reported (R123) -/
  | loads (v : Byte) : Effect s (s.setRes v.toNat)
  /-- the CRC unit alone is written (R116, R117) -/
  | crcs (c : Half) (valid : Bool) : Effect s { s with crc := c, crcValid := valid }

theorem exec_effect {i : Instr} {s t : State} (h : exec i s = .next t) : Effect s t := by
  cases i with
  | sendb v =>
    obtain ⟨⟨⟩, -, -, hw, -⟩ := offer_eq_next h
    exact .sends [v] (hw rfl)
  | readb =>
    obtain ⟨⟨⟩, -, -, hw, -⟩ := offer_eq_next h
    exact .reads (hw rfl)
  | flush =>
    obtain ⟨⟨⟩, -, -, hw, -⟩ := offer_eq_next h
    exact .flushes (hw rfl)
  | enc a n =>
    obtain ⟨⟨⟩, -, hr, -⟩ := offer_eq_next h
    obtain ⟨-, hn⟩ := Bool.and_eq_true_iff.1 hr
    exact .encodes _ _ (by simpa using (symRange_iff n).1 hn) (by simp)
  | dec a cap =>
    obtain ⟨⟨⟩, -, hr, -⟩ := offer_eq_next h
    have := (bufRange_iff a cap).1 hr
    exact .decodes a _ (by rw [List.length_take]; omega)
  | sendBytes | flagCmd | flagTx | flagIdle | flagSleep =>
    obtain ⟨⟨⟩, -, -, hw, -⟩ := offer_eq_next h
    exact .sends _ (hw rfl)
  | collect a cap =>
    obtain ⟨hrun, -, hr, hw, -⟩ := offer_eq_next h
    obtain ⟨ha, hn⟩ := Bool.and_eq_true_iff.1 hr
    split at hrun
    · cases hrun
    · rename_i r hres
      cases hrun
      exact .collects a cap r (hw rfl) ((bufRange_iff a cap).1 ha) ((symRange_iff cap).1 hn) hres
  | crcSeed a =>
    obtain ⟨⟨⟩, -⟩ := offer_eq_next h
    exact .crcs _ true
  | crcUpd a n =>
    obtain ⟨⟨⟩, -⟩ := offer_eq_next h
    exact .crcs _ s.crcValid
  | crcGet a =>
    obtain ⟨⟨⟩, -, hr, -⟩ := offer_eq_next h
    exact .stores a _ ((bufRange_iff a 2).1 hr)
  | stb a v =>
    obtain ⟨⟨⟩, -, hr, -⟩ := offer_eq_next h
    exact .stores a [v] ((bufAddr_iff a).1 hr)
  | ldb a =>
    obtain ⟨⟨⟩, -⟩ := offer_eq_next h
    exact .loads _
  | symBit0 | symBit1 | flagByteCmd | flagByteTx | flagByteIdle | flagByteSleep => cases h; exact .arrives _

theorem Effect.cfg_eq {s t : State} (h : Effect s t) : t.cfg = s.cfg := by
  cases h <;> rfl

theorem Effect.follows {s t : State} (h : Effect s t) : s.link.Follows t.link := by
  cases h with
  | arrives v => exact Link.follows_rx v _
  | sends syms => exact Link.follows_sendSyms _ syms _
  | reads => exact Link.follows_readb _ _
  | flushes => exact Link.follows_flush _ _
  | collects a cap r _ _ _ response =>
    exact (Link.follows_askForResponse s.cfg s.link).trans (Link.follows_response _ _ response)
  | encodes => exact .refl _
  | decodes => exact .refl _
  | stores => exact .refl _
  | loads => exact .refl _
  | crcs => exact .refl _

/-- What `READB` returns is the sentinel or a value below it (R81, R160). -/
theorem Inv.readb {s : State} (h : Inv s) (he : s.link.cfgEn = true) :
    Inv { s with link := (s.link.readb s.cfg).2, res := (s.link.readb s.cfg).1 } := by
  have hres : ((s.link.readb s.cfg).1.fail = false ∧ (s.link.readb s.cfg).1.val ≠ 0xFFFF) ∨
      (s.link.readb s.cfg).1 = Res.sentinel := by
    rcases Link.readb_cases s.cfg s.link with ⟨hf, hv, -⟩ | ⟨hs, -⟩
    · refine .inl ⟨hf, fun hc => ?_⟩
      rw [hc] at hv
      exact absurd hv (by decide)
    · exact .inr hs
  refine h.update rfl rfl (Link.inv_readb h.link he) h.bufWf h.symWf h.symLenBound h.symValid ?_ ?_
  · intro hf
    rcases hres with ⟨hn, -⟩ | hs
    · exact absurd (hf.symm.trans hn) (by decide)
    · exact hs
  · intro hf
    rcases hres with ⟨-, hv⟩ | hs
    · exact hv
    · exact absurd ((congrArg Res.fail hs).symm.trans hf) (by decide)

theorem Effect.inv {s t : State} (h : Effect s t) (hs : Inv s) : Inv t := by
  cases h with
  | arrives v => exact hs.onLink _ (Link.inv_rx v hs.link)
  | sends syms ready => exact hs.onLink _ (Link.inv_sendSyms syms hs.link ready)
  | reads ready => exact hs.readb ready
  | flushes ready => exact hs.onLink _ (Link.inv_flush hs.link ready)
  | collects a cap r ready bytes symbols response =>
    have hk : r.2.Inv s.cfg := Link.inv_response (Link.inv_askForResponse hs.link ready)
      ((Link.follows_askForResponse _ _).cfgEn.trans ready) response
    exact (hs.onLink (fun _ => r.2) hk).storeResponse a cap r.1 bytes symbols
  | encodes l v symbols count => exact (hs.symLoad l symbols).setRes v (by omega)
  | decodes a l bytes => exact (hs.bufWrite a l bytes).setRes _ (by omega)
  | stores a l bytes => exact hs.bufWrite a l bytes
  | loads v => exact hs.setRes _ (by have := v.isLt; omega)
  | crcs c valid =>
    exact hs.update rfl rfl hs.link hs.bufWf hs.symWf hs.symLenBound hs.symValid hs.failMeans hs.valMeans

/-! ### What a step can do -/

/-- The state that a power-on with the agenda `rest` behind it leads to (R143, log 22). -/
def State.poweredOn (rest : List Input) (s : State) : State :=
  (State.atPowerOn s.cfg (s.boot + 1)).onLink fun l =>
    { l with
      inputs := rest, txHealthy := s.link.txHealthy, envSilent := s.link.envSilent, draws := s.link.draws }

/-- What a step that answers a next state does, by the first item of the agenda (R50, log 1). -/
inductive StepEffect (s : State) : State → Prop
  /-- nothing is on the agenda and nothing happens (R144) -/
  | rests (agenda : s.link.inputs = []) : StepEffect s s
  /-- nothing is on the agenda and a healthy transmitter moves on (R32) -/
  | transmits (agenda : s.link.inputs = []) : StepEffect s (s.onLink Link.txStep)
  /-- a word is taken in (R64) -/
  | takesWord {t : State} (c : CodeWord) (rest : List Input) (agenda : s.link.inputs = .word c :: rest)
      (effect : Effect (s.withInputs rest) t) : StepEffect s t
  /-- the environment acts (R32 to R36) -/
  | event (e : EnvEvent) (rest : List Input)
      (agenda : s.link.inputs = .env e :: rest ∨ s.link.inputs = .amid e :: rest) :
      StepEffect s ((s.withInputs rest).onLink (Link.apply e))
  /-- bus initialisation (R146) -/
  | busInit (rest : List Input) (agenda : s.link.inputs = .busInit :: rest) :
      StepEffect s ((s.withInputs rest).onLink (Link.busInit s.cfg))
  /-- the host stores a byte directly (R27) -/
  | hostStore (a : Nat) (v : Byte) (rest : List Input) (agenda : s.link.inputs = .hostStore a v :: rest)
      (bytes : a < 512) : StepEffect s ((s.withInputs rest).bufWrite a [v])
  /-- power-on (R143) -/
  | powerOn (rest : List Input) (agenda : s.link.inputs = .powerOn :: rest) : StepEffect s (s.poweredOn rest)

/-- A word that is taken in runs the instruction it spells, or is a symbol without a name and arrives (R64, R66). -/
theorem stepWord_effect {c : CodeWord} {s t : State} (h : stepWord c s = .next t) : Effect s t := by
  unfold stepWord at h
  split at h
  · exact exec_effect h
  · split at h
    · cases h; exact .arrives _
    · cases h

theorem step_effect {s t : State} (h : step s = .next t) : StepEffect s t := by
  unfold step at h
  split at h <;> rename_i agenda
  case h_1 =>
    unfold stepIdle at h
    split at h <;> cases h
    · exact .transmits agenda
    · exact .rests agenda
  case h_2 c rest => exact .takesWord c rest agenda (stepWord_effect h)
  case h_3 e rest => cases h; exact .event e rest (.inl agenda)
  case h_4 e rest => cases h; exact .event e rest (.inr agenda)
  case h_5 rest => obtain ⟨⟨⟩, -⟩ := offer_eq_next h; exact .busInit rest agenda
  case h_6 a v rest =>
    obtain ⟨⟨⟩, -, hr, -⟩ := offer_eq_next h
    exact .hostStore a v rest agenda ((bufAddr_iff a).1 hr)
  case h_7 rest => cases h; exact .powerOn rest agenda

theorem StepEffect.cfg_eq {s t : State} (h : StepEffect s t) : t.cfg = s.cfg := by
  cases h with
  | takesWord _ _ _ effect => exact effect.cfg_eq
  | rests | transmits | event | busInit | hostStore | powerOn => rfl

/-- A step changes neither premise on the environment, a power-on included (R32, R108). -/
theorem StepEffect.premises_eq {s t : State} (h : StepEffect s t) :
    t.link.txHealthy = s.link.txHealthy ∧ t.link.envSilent = s.link.envSilent := by
  cases h with
  | transmits =>
    have hf := Link.follows_txStep s.link
    exact ⟨hf.txHealthy, hf.envSilent⟩
  | takesWord _ _ _ effect => exact ⟨effect.follows.txHealthy, effect.follows.envSilent⟩
  | event e rest =>
    have hf := Link.follows_apply e { s.link with inputs := rest }
    exact ⟨hf.txHealthy, hf.envSilent⟩
  | rests | busInit | hostStore | powerOn => exact ⟨rfl, rfl⟩

theorem Link.inv_busInit (p : Params) (l : Link) : (l.busInit p).Inv p :=
  ⟨rfl, fun _ => rfl, fun he => absurd he (by simp [Link.busInit]), fun _ => ⟨rfl, rfl⟩⟩

theorem Link.inv_atPowerOn (p : Params) (boot : Nat) : (Link.atPowerOn boot).Inv p :=
  ⟨rfl, fun _ => rfl, fun _ => ⟨rfl, rfl, rfl, rfl, rfl, rfl, rfl⟩, fun he => absurd he (by simp [Link.atPowerOn])⟩

theorem inv_atPowerOn {p : Params} (boot : Nat) (hp : p.Lawful) : Inv (State.atPowerOn p boot) where
  lawful := hp
  idle := rfl
  link := Link.inv_atPowerOn p boot
  bufWf := rfl
  symWf := rfl
  symLenBound := Nat.zero_le _
  symValid := fun i hi => absurd hi (Nat.not_lt_zero i)
  failMeans := fun _ => rfl
  valMeans := fun hf => absurd hf (by simp [State.atPowerOn, Res.sentinel])

theorem Inv.poweredOn {s : State} (rest : List Input) (h : Inv s) : Inv (s.poweredOn rest) := by
  obtain ⟨tcMeans, cleanMeans, unready, ready⟩ := Link.inv_atPowerOn s.cfg (s.boot + 1)
  exact (inv_atPowerOn (s.boot + 1) h.lawful).onLink _ ⟨tcMeans, cleanMeans, unready, ready⟩

theorem StepEffect.inv {s t : State} (h : StepEffect s t) (hs : Inv s) : Inv t := by
  cases h with
  | rests => exact hs
  | transmits => exact hs.onLink _ (Link.inv_txStep hs.link)
  | takesWord c rest _ effect => exact effect.inv (hs.withInputs rest)
  | event e rest => exact (hs.withInputs rest).onLink _ (Link.inv_apply e (hs.withInputs rest).link)
  | busInit rest => exact (hs.withInputs rest).onLink _ (Link.inv_busInit s.cfg _)
  | hostStore a v rest _ bytes => exact (hs.withInputs rest).bufWrite a [v] bytes
  | powerOn rest => exact hs.poweredOn rest

/-! ### Accepted operations of the channel -/

/-- An accepted operation of the channel runs (R131). -/
theorem Accepted.offer_wire {i : Instr} {s : State} (h : Accepted i s) (hw : touchesWire i) (run : Result) :
    offer true true false s run = run := by
  obtain ⟨hb, -, he, -⟩ := h
  exact offer_accepted run hb rfl (fun _ => he hw) (by simp)

theorem Accepted.exec_sendb {v : Byte} {s : State} (h : Accepted (.sendb v) s) :
    exec (.sendb v) s = .next (s.onLink (Link.sendb s.cfg v)) :=
  h.offer_wire (.inl ⟨v, rfl⟩) _

theorem Accepted.exec_readb {s : State} (h : Accepted .readb s) :
    exec .readb s = .next { s with link := (s.link.readb s.cfg).2, res := (s.link.readb s.cfg).1 } :=
  h.offer_wire (.inr (.inl rfl)) _

theorem Accepted.exec_flush {s : State} (h : Accepted .flush s) :
    exec .flush s = .next (s.onLink (Link.flush s.cfg)) :=
  h.offer_wire (.inr (.inr (.inl rfl))) _

theorem Accepted.cfgEn {i : Instr} {s : State} (h : Accepted i s) (hw : touchesWire i) : s.link.cfgEn = true := by
  obtain ⟨-, -, he, -⟩ := h
  exact he hw

/-! ### `SENDB` by the end of its wait -/

/-- The wait of `SENDB` succeeded: the symbol is in `TDR` (R76). -/
theorem Link.sendb_of_held {p : Params} (v : Byte) {l : Link} (h : (l.waitUntil Link.canSend p.txWaitTicks).1 = .held) :
    l.sendb p v =
      { (l.waitUntil Link.canSend p.txWaitTicks).2.blurReceive with
        tdr := v, txe := false, tc := false, rxClean := false } := by
  unfold Link.sendb
  split <;> rename_i heq <;> rw [heq] at h ⊢
  rename_i hn
  exact absurd h (by simpa using hn)

/-- The wait of `SENDB` ran out: it is all that has happened (R75). -/
theorem Link.sendb_of_not_held {p : Params} (v : Byte) {l : Link}
    (h : (l.waitUntil Link.canSend p.txWaitTicks).1 ≠ .held) :
    l.sendb p v = (l.waitUntil Link.canSend p.txWaitTicks).2 := by
  unfold Link.sendb
  split <;> rename_i heq <;> rw [heq] at h ⊢
  exact absurd rfl h

/-! ### `READB` on a clean path -/

/-- With a clean path and a symbol in `RDR`, `READB` does not wait (R79). -/
theorem Link.readb_of_rxne (p : Params) {l : Link} (hc : l.rxClean = true) (hr : l.rxne = true) :
    l.readb p = l.takeOrFail := by
  unfold Link.readb
  rw [readWait_of_canRead p (by simp [Link.canRead, hr])]
  simp [Link.babbles, hc]

/-- With a clean path, a `READB` whose budget is used up takes what `RDR` holds or fails (R79). -/
theorem Link.readb_of_expired {p : Params} {l k : Link} (hw : l.readWait p = (.expired, k)) (hc : k.rxClean = true) :
    l.readb p = k.takeOrFail := by
  unfold Link.readb
  rw [hw]
  simp [Link.babbles, hc]

/-- A symbol that arrives at an empty ready receiver and is taken by `READB` on a clean path is returned in 7 bits
(R34, R79). -/
theorem symbolArrives_readb {s : State} (v : Byte) (hb : s.busy = false) (he : s.link.cfgEn = true)
    (hr : s.link.rxne = false) (hc : s.link.rxClean = true) :
    ∃ t, thenExec (symbolArrives v s) .readb = .next t ∧ t.res = ⟨false, (v.setWidth 7).setWidth 16⟩ := by
  have hl : Link.rx v s.link = { s.link with rdr := v, rxne := true } := by
    rw [Link.rx, if_pos he, Link.latch_free v hr]
  have heard : (Link.rx v s.link).rxne = true ∧ (Link.rx v s.link).rdr = v ∧ (Link.rx v s.link).rxClean = true := by
    rw [hl]; exact ⟨rfl, rfl, hc⟩
  obtain ⟨rxne, rdr, clean⟩ := heard
  have hacc : Accepted .readb (s.onLink (Link.rx v)) :=
    ⟨hb, id, fun _ => (Link.follows_rx v s.link).cfgEn.trans he, by simp⟩
  refine ⟨_, hacc.exec_readb, ?_⟩
  show ((Link.rx v s.link).readb s.cfg).1 = _
  rw [Link.readb_of_rxne s.cfg clean rxne, Link.takeOrFail_of_rxne rxne, rdr]

/-! ### A wait that uses up its budget -/

/-- A wait whose budget is used up ends there, and leaves the agenda as it is (R9). -/
theorem Link.waitEvents_zero {cond : Link → Bool} {l : Link} (hc : cond l = false) (is : List Input) :
    Link.waitEvents cond 0 is l = (.expired, { l with inputs := is }) := by
  cases is with
  | nil => simp [Link.waitEvents, Link.stopWait, hc]
  | cons i is => unfold Link.waitEvents; split <;> simp [Link.stopWait, hc]

/-- A wait that sees as many ticks as its budget has, and whose condition no tick brings about, takes just those ticks
(R9). -/
theorem Link.waitEvents_ticks {cond : Link → Bool} (tick : ∀ k, cond (Link.tick k) = cond k) (n : Nat)
    (rest : List Input) {l : Link} (hc : cond l = false) :
    Link.waitEvents cond n (List.replicate n (.env .tick) ++ rest) l =
      (.expired, { l with inputs := rest, ticks := l.ticks + n }) := by
  induction n generalizing l with
  | zero => exact waitEvents_zero hc rest
  | succ n ih =>
    have hb : (cond l || n + 1 == 0) = false := by simp [hc]
    rw [List.replicate_succ, List.cons_append, Link.waitEvents]
    simp only [envEventOf, hb, Bool.false_eq_true, if_false]
    have := ih (l := Link.tick l) ((tick l).trans hc)
    exact this.trans (by simp [Link.tick, Nat.add_comm 1 n, Nat.add_assoc])

/-! ### Arrivals that overtake the transmitter -/

/-- Symbols that arrive while a transmission goes on are all taken from the agenda by the wait of `FLUSH` (R34, R153). -/
theorem Link.overtake_arrivals {n : Nat} (hn : 0 < n) (r : List Byte) {rest : List Input}
    (hrest : ∀ e more, rest ≠ .amid e :: more) {l : Link} (htc : l.tc = false) :
    (l.overtake Link.allSent n (r.map (fun v => .amid (.rx v)) ++ rest)).2.1 = rest := by
  induction r generalizing l with
  | nil => exact (overtake_inputs Link.allSent n rest l).eq hrest
  | cons v r ih =>
    have hgo : (Link.allSent l || n == 0) = false := by simp [Link.allSent, htc, Nat.pos_iff_ne_zero.1 hn]
    have htc' : (l.rx v).tc = false := by unfold Link.rx; split <;> exact htc
    rw [List.map_cons, List.cons_append, Link.overtake]
    simp only [amidEventOf, hgo, Bool.false_eq_true, if_false]
    exact ih htc'

/-- Under TxHealthy a wait whose condition the transmitter brings about leaves the agenda behind the events that have
overtaken the transmitter (log 2). -/
theorem Link.inputs_waitUntil_of_drained {cond : Link → Bool} {l : Link} (n : Nat) (hh : l.txHealthy = true)
    (hc : cond ((l.overtake cond n l.inputs).2.2.drain cond 3) = true) :
    (l.waitUntil cond n).2.inputs = (l.overtake cond n l.inputs).2.1 := by
  unfold Link.waitUntil
  rw [if_pos hh]
  simp only [waitEvents_of_holds hc]

theorem Link.inputs_flush_healthy {p : Params} {l : Link} (hh : l.txHealthy = true) (hi : l.Inv p) :
    (l.flush p).inputs = (l.overtake Link.allSent p.tcWaitTicks l.inputs).2.1 :=
  inputs_waitUntil_of_drained p.tcWaitTicks hh
    (allSent_drain (overtake_preserves (fun e _ h => inv_apply e h) _ _ _ hi).tcMeans)

end Sys2Proof.Machine

namespace Sys2Proof.Proofs

open Sys2Proof.Machine

/-! ### The machine as a whole -/

/-- Settles O7: each of the things a step can do keeps the invariant. -/
theorem stepKeepsInv : Obligations.StepKeepsInv :=
  fun _ _ hs h => (step_effect h).inv hs

/-- Settles O8. -/
theorem powerOnMeetsInv : Obligations.PowerOnMeetsInv := by
  have hd : Params.default.Lawful := by decide
  exact ⟨fun _ boot hp => inv_atPowerOn boot hp, hd, inv_atPowerOn 0 hd⟩

/-- Settles O12: a step leaves the parameters alone, and the premises too. -/
theorem parametersNeverChange : Obligations.ParametersNeverChange :=
  fun _ _ h => ⟨(step_effect h).cfg_eq, (step_effect h).premises_eq⟩

/-! ### Symbols that arrive -/

/-- Settles O25: `READB` returns the 7 bits of the symbol, which the laws of `near_bit1` speak of. -/
theorem bitSymbolsReadBack : Obligations.BitSymbolsReadBack := by
  intro s hp hb he hr hc
  obtain ⟨-, -, near1, near0, -⟩ := hp
  obtain ⟨t1, ht1, hres1⟩ := symbolArrives_readb s.cfg.symBit1 hb he hr hc
  obtain ⟨t0, ht0, hres0⟩ := symbolArrives_readb s.cfg.symBit0 hb he hr hc
  refine ⟨⟨t1, ht1, by rw [hres1], ?_⟩, ⟨t0, ht0, by rw [hres0], ?_⟩⟩
  · simpa [hres1] using near1
  · simpa [hres0] using near0

/-! ### The three operations of BitChannel -/

/-- Settles O27. -/
theorem sendbUnderTxHealthy : Obligations.SendbUnderTxHealthy := by
  intro s v ha hh
  obtain ⟨held, -, wire, -⟩ := Link.waitUntil_canSend_healthy s.cfg.txWaitTicks hh
  obtain ⟨sent, amid, -⟩ := Link.sendb_healthy s.cfg v hh
  have hk := Link.sendb_of_held v held
  refine ⟨_, ha.exec_sendb, rfl, sent, ?_, ?_, ?_, ?_, ?_, amid⟩ <;> rw [State.link_onLink, hk]
  exact wire

/-- Settles O28. -/
theorem sendbAbortsSilently : Obligations.SendbAbortsSilently := by
  intro s v ha hh htxe hi
  have hw := Link.waitUntil_dry Link.canSend s.cfg.txWaitTicks (.inl hh) htxe hi
  have hn : (s.link.waitUntil Link.canSend s.cfg.txWaitTicks).1 ≠ .held := by rw [hw]; split <;> simp
  rw [ha.exec_sendb, State.onLink, Link.sendb_of_not_held v hn, hw]

/-- Settles O32: the budget is positive and all of it passes among the ticks on the agenda. -/
theorem readbEndsByBudget : Obligations.ReadbEndsByBudget := by
  intro s rest hs ha hc hr hrto hi
  have hw : s.link.readWait s.cfg =
      (.expired, { s.link with inputs := rest, ticks := s.link.ticks + s.cfg.rxWaitTicks }) := by
    rw [Link.readWait, Link.waitUntil_not_sending _ _ (hs.link.not_sending hc), hi]
    exact Link.waitEvents_ticks (fun _ => rfl) _ rest (by simp [Link.canRead, hr, hrto])
  have hk := (Link.readb_of_expired hw hc).trans (Link.takeOrFail_of_empty hr)
  exact ⟨_, ha.exec_readb, by rw [hk]; rfl, by rw [hk], by rw [hk]⟩

/-- Settles O35: `tc` is up at the end of the wait, and by the invariant both transmit buffers are then empty. -/
theorem flushUnderTxHealthy : Obligations.FlushUnderTxHealthy := by
  intro s hs ha hh
  obtain ⟨wire, clean, tc, amid⟩ := Link.flush_healthy s.cfg hh hs.link
  have hi := (Link.inv_flush hs.link (ha.cfgEn (.inr (.inr (.inl rfl))))).tcMeans
  rw [tc] at hi
  obtain ⟨txe, tsr⟩ := Bool.and_eq_true_iff.1 hi.symm
  exact ⟨_, ha.exec_flush, rfl, wire, txe, by simpa using tsr, tc, clean, rfl, rfl, rfl, amid⟩

/-- Settles O36: the wait takes every arrival and stops in front of what is behind them, and then the receive path is
emptied. -/
theorem flushLosesEarlyArrivals : Obligations.FlushLosesEarlyArrivals := by
  intro s r rest hs ha hh htc hi hrest
  obtain ⟨-, -, -, -, -, -, budget, -⟩ := hs.lawful
  obtain ⟨wire, clean, -, -⟩ := Link.flush_healthy s.cfg hh hs.link
  have inputs : (s.link.flush s.cfg).inputs = rest := by
    rw [Link.inputs_flush_healthy hh hs.link, hi]
    exact Link.overtake_arrivals budget r hrest htc
  exact ⟨_, ha.exec_flush, inputs, wire, rfl, rfl, clean⟩

/-- Settles O37. -/
theorem flushTimesOut : Obligations.FlushTimesOut := by
  intro s ha hh htc hi
  have hw := Link.waitUntil_dry Link.allSent s.cfg.tcWaitTicks (.inl hh) htc hi
  have hn : ¬ (if s.cfg.tcWaitTicks = 0 then WaitEnd.expired else .ranDry) = .held := by split <;> simp
  rw [ha.exec_flush, State.onLink, Link.flush, hw]
  simp [hn]

end Sys2Proof.Proofs

/-! How a word, a symbol and an event of the environment are taken in; when an operation is refused; what an instruction
leaves alone; and what `FLUSH`, `ENC`, `STB` and `COLLECT` come to once they are accepted. -/

namespace Sys2Proof.Machine

/-! ### Words -/

/-- A word of 32 bits enters whole as a command word (R61). -/
theorem codeWordOfBits_cw32 (w : BitVec 32) : codeWordOfBits 32 w.toNat = .cw32 w := by
  rw [codeWordOfBits, if_neg (by decide), Nat.mod_eq_of_lt w.isLt, BitVec.ofNat_toNat, BitVec.setWidth_eq]

/-- A word of 8 bits enters as a symbol (R57, log 26). -/
theorem codeWordOfBits_sym8 (v : Byte) : codeWordOfBits 8 v.toNat = .sym8 v := by
  rw [codeWordOfBits, if_pos le_rfl, Nat.mod_eq_of_lt v.isLt, BitVec.ofNat_toNat, BitVec.setWidth_eq]

/-- A table word put first on the agenda is taken in by the next step, in the state it was put on (log 18). -/
theorem step_withFetchWord (s : State) (nbits w : Nat) :
    step (s.withFetchWord nbits w) = stepWord (codeWordOfBits nbits w) s := rfl

theorem stepWord_of_decodes {c : CodeWord} {i : Instr} {s : State} (h : decodeWith s.cfg c = .ok i) :
    stepWord c s = exec i s := by
  rw [stepWord, h]

/-- The word of a host operation decodes to it (R61, R62). -/
theorem decodeCw_of_encode {p : Params} {i : Instr} {w : BitVec 32} (hi : i.WellFormed)
    (h : encodeWith p i = .cw32 w) : decodeCw w = .ok i := by
  have imm_fits (v : Byte) : v.toNat < 4096 := by have := v.isLt; omega
  have imm_low (v : Byte) : v.toNat / 256 = 0 := Nat.div_eq_of_lt v.isLt
  cases i with
  | symBit0 | symBit1 | flagByteCmd | flagByteTx | flagByteIdle | flagByteSleep => cases h
  | sendb v | stb a v =>
    cases h
    simp [decodeCw, whenUnusedZero, Laws.cwOp_mk, Laws.cwA_mk, Laws.cwB_mk, Laws.cwImm_mk, hi, imm_fits, imm_low]
  | enc a n | dec a n | sendBytes a n | collect a n | crcUpd a n =>
    cases h
    simp [decodeCw, Laws.cwOp_mk, Laws.cwA_mk, Laws.cwB_mk, hi]
  | readb | flush | flagCmd | flagTx | flagIdle | flagSleep | crcSeed a | crcGet a | ldb a =>
    cases h
    simp [decodeCw, whenUnusedZero, Laws.cwOp_mk, Laws.cwA_mk, Laws.cwB_mk, hi]

theorem eq_of_whenUnusedZero {ok : Bool} {i j : Instr} (h : whenUnusedZero ok j = .ok i) : i = j := by
  unfold whenUnusedZero at h
  split at h <;> cases h
  rfl

/-- A command word spells a host operation, never a symbol of the wire (R62). -/
theorem isHostOp_of_decodeCw {w : BitVec 32} {i : Instr} (h : decodeCw w = .ok i) : isHostOp i = true := by
  unfold decodeCw at h
  split at h
  -- a reserved operation number
  case h_17 => cases h
  -- the operations with two operands, which leave no field unused
  case h_4 | h_5 | h_6 | h_11 | h_13 => cases h; rfl
  all_goals rw [eq_of_whenUnusedZero h]; rfl

/-! ### Symbols -/

/-- A symbol of the opcode table arrives as the value that the machine's own parameters give it (R57, R58, R60). -/
theorem exec_of_encode_sym8 {i : Instr} {s : State} {v : Byte} (h : encodeWith s.cfg i = .sym8 v) :
    exec i s = symbolArrives v s := by
  cases i with
  | symBit0 | symBit1 | flagByteCmd | flagByteTx | flagByteIdle | flagByteSleep => cases h; rfl
  | _ => cases h

/-- A name that the decoder gives a symbol has that symbol as its value. -/
theorem encodeWith_of_decodeSym {p : Params} {v : Byte} {i : Instr} (h : decodeSym p v = .ok i) :
    encodeWith p i = .sym8 v := by
  unfold decodeSym at h
  split_ifs at h <;> cases h <;> simp only [encodeWith, *]

/-- Any symbol that is taken in arrives, named or not (R66). -/
theorem stepWord_sym8 (v : Byte) (s : State) : stepWord (.sym8 v) s = symbolArrives v s := by
  cases h : decodeSym s.cfg v with
  | ok i => rw [stepWord_of_decodes (c := .sym8 v) h, exec_of_encode_sym8 (encodeWith_of_decodeSym h)]
  | error e => simp only [stepWord, decodeWith, h]

/-! ### Refusal -/

theorem offer_refused_iff {inRange wire seed : Bool} {s : State} {run : Result} (hrun : ∀ r, run ≠ .refused r) :
    (∃ r, offer inRange wire seed s run = .refused r) ↔ refusalOf inRange wire seed s ≠ none := by
  unfold offer
  cases refusalOf inRange wire seed s with
  | none => simpa using hrun
  | some r => simp

/-- A host operation is refused exactly when it is not accepted (R131). -/
theorem exec_refused_iff {i : Instr} (hi : isHostOp i = true) (s : State) :
    (∃ r, exec i s = .refused r) ↔ ¬ Accepted i s := by
  cases i with
  | symBit0 | symBit1 | flagByteCmd | flagByteTx | flagByteIdle | flagByteSleep => cases hi
  | collect a cap =>
    refine (offer_refused_iff fun r => ?_).trans (not_congr (refusalOf_eq_none.trans ?_))
    · split <;> simp
    · simp [Accepted, outOfRange, touchesWire, bufRange_iff, symRange_iff]
  | _ =>
    refine (offer_refused_iff (by simp)).trans (not_congr (refusalOf_eq_none.trans ?_))
    simp [Accepted, outOfRange, touchesWire, bufRange_iff, symRange_iff, bufAddr_iff]

/-- The reasons of R131, one by one. -/
theorem not_accepted_iff {i : Instr} {s : State} :
    ¬ Accepted i s ↔ s.busy = true ∨ outOfRange i ∨ (touchesWire i ∧ s.link.cfgEn = false) ∨
      (((∃ a n, i = .crcUpd a n) ∨ ∃ a, i = .crcGet a) ∧ s.crcValid = false) := by
  simp only [Accepted, not_and_or, Classical.not_imp, not_not, Bool.not_eq_false, Bool.not_eq_true]

/-! ### What leaves the CRC unit alone -/

/-- `s` with other contents of the CRC unit. -/
def State.withCrc (c : Half) (v : Bool) (s : State) : State := { s with crc := c, crcValid := v }

/-- The same outcome, with another next state. -/
def mapNext (f : State → State) : Result → Result
  | .next t => .next (f t)
  | .fault q => .fault q
  | .refused r => .refused r

/-- An operation that needs no seed is offered alike whatever the CRC unit holds. -/
theorem offer_withCrc {inRange wire : Bool} (s : State) (c : Half) (v : Bool) {run run' : Result}
    (h : run' = mapNext (State.withCrc c v) run) :
    offer inRange wire false (s.withCrc c v) run' =
      mapNext (State.withCrc c v) (offer inRange wire false s run) := by
  subst h
  unfold offer
  rw [show refusalOf inRange wire false (s.withCrc c v) = refusalOf inRange wire false s from rfl]
  cases refusalOf inRange wire false s <;> rfl

/-- An instruction outside the CRC unit does the same whatever `CRC` and `crc_valid` hold (R109). -/
theorem exec_withCrc {i : Instr} (hseed : ∀ a, i ≠ .crcSeed a) (hupd : ∀ a n, i ≠ .crcUpd a n)
    (hget : ∀ a, i ≠ .crcGet a) (s : State) (c : Half) (v : Bool) :
    exec i (s.withCrc c v) = mapNext (State.withCrc c v) (exec i s) := by
  cases i with
  | crcSeed a => exact absurd rfl (hseed a)
  | crcUpd a n => exact absurd rfl (hupd a n)
  | crcGet a => exact absurd rfl (hget a)
  | symBit0 | symBit1 | flagByteCmd | flagByteTx | flagByteIdle | flagByteSleep => rfl
  | collect a cap =>
    refine offer_withCrc s c v ?_
    show (match (s.link.askForResponse s.cfg).response s.cfg with | none => _ | some r => _) = _
    cases (s.link.askForResponse s.cfg).response s.cfg <;> rfl
  | _ => exact offer_withCrc s c v rfl

/-! ### What has been handed to the transmitter -/

/-- An instruction only adds to the symbols handed over (R51). -/
theorem Effect.symbolsSent_prefix {s t : State} (h : Effect s t) : s.link.symbolsSent <+: t.link.symbolsSent := by
  cases h with
  | arrives v => exact (Link.symbolsSent_of_sent (Link.sent_apply (.rx v) s.link)) ▸ List.prefix_rfl
  | sends syms => exact Link.symbolsSent_sendSyms s.cfg syms s.link
  | reads => rw [Link.symbolsSent_readb]
  | flushes => rw [State.link_onLink, Link.symbolsSent_flush]
  | collects a cap r _ _ _ response =>
    have hr : r.2.symbolsSent = (s.link.sendFlag s.cfg s.cfg.flagTx).symbolsSent :=
      (Link.symbolsSent_response s.cfg _ response).trans (Link.symbolsSent_flush s.cfg _)
    show _ <+: r.2.symbolsSent
    rw [hr]
    exact Link.symbolsSent_sendSyms s.cfg _ s.link
  | encodes | decodes | stores | loads | crcs => exact List.prefix_rfl

/-- An instruction that does not transmit hands nothing over (R85). -/
theorem exec_symbolsSent_eq {i : Instr} {s t : State} (h : exec i s = .next t) (hi : ¬ transmits i) :
    t.link.symbolsSent = s.link.symbolsSent := by
  cases i with
  | sendb | sendBytes | flagCmd | flagTx | flagIdle | flagSleep | collect => exact absurd (by simp [transmits]) hi
  | readb =>
    obtain ⟨⟨⟩, -⟩ := offer_eq_next h
    exact Link.symbolsSent_readb s.cfg s.link
  | flush =>
    obtain ⟨⟨⟩, -⟩ := offer_eq_next h
    exact Link.symbolsSent_flush s.cfg s.link
  | enc | dec | crcSeed | crcUpd | crcGet | stb | ldb =>
    obtain ⟨⟨⟩, -⟩ := offer_eq_next h
    rfl
  | symBit0 | symBit1 | flagByteCmd | flagByteTx | flagByteIdle | flagByteSleep =>
    cases h
    exact Link.symbolsSent_of_sent (Link.sent_apply (.rx _) s.link)

/-! ### Steps of the environment, enabled or not -/

/-- One step with an event of the environment first on the agenda changes the channel alone. -/
theorem step_env {s : State} {e : EnvEvent} {rest : List Input} {k : Link} (h : s.link.inputs = .env e :: rest)
    (hk : Link.apply e { s.link with inputs := rest } = k) : step s = .next { s with link := k } := by
  rw [step, h, ← hk]; rfl

theorem Link.shift_enabled {l : Link} (htxe : l.txe = false) (hbusy : l.tsrBusy = false) :
    l.shift = { l with tsr := l.tdr, tsrBusy := true, txe := true, wire := l.wire ++ [.tx l.tdr] } := by
  simp [Link.shift, htxe, hbusy]

theorem Link.shift_disabled {l : Link} (h : l.txe = true ∨ l.tsrBusy = true) : l.shift = l := by
  rcases h with h | h <;> simp [Link.shift, h]

theorem Link.done_enabled {l : Link} (echo : Byte) (h : l.tsrBusy = true) :
    l.done echo = Link.latch echo { l with tsrBusy := false, tc := l.tc || l.txe } := by
  rw [Link.done, if_pos h]

theorem Link.done_disabled {l : Link} (echo : Byte) (h : l.tsrBusy = false) : l.done echo = l := by
  rw [Link.done, h, if_neg Bool.false_ne_true]

theorem Link.rx_ready {l : Link} (v : Byte) (he : l.cfgEn = true) : l.rx v = l.latch v := by
  rw [Link.rx, if_pos he]

theorem Link.rx_notReady {l : Link} (v : Byte) (he : l.cfgEn = false) : l.rx v = l := by
  rw [Link.rx, he, if_neg Bool.false_ne_true]

theorem Link.raiseRto_ready {l : Link} (he : l.cfgEn = true) : l.raiseRto = { l with rto := true } := by
  rw [Link.raiseRto, if_pos he]

theorem Link.raiseRto_notReady {l : Link} (he : l.cfgEn = false) : l.raiseRto = l := by
  rw [Link.raiseRto, he, if_neg Bool.false_ne_true]

theorem Link.raiseErr_ready {l : Link} (he : l.cfgEn = true) : l.raiseErr = { l with err := true } := by
  rw [Link.raiseErr, if_pos he]

theorem Link.raiseErr_notReady {l : Link} (he : l.cfgEn = false) : l.raiseErr = l := by
  rw [Link.raiseErr, he, if_neg Bool.false_ne_true]

theorem Link.rdr_err_latch_of_free {l : Link} (v : Byte) (h : l.rxne = false) :
    (l.latch v).rdr = v ∧ (l.latch v).err = l.err := by
  rw [latch_free v h]
  exact ⟨rfl, rfl⟩

/-- An overrun records the error and leaves in `RDR` the old or the new symbol (R34, log 7). -/
theorem Link.latch_overrun {l : Link} (v : Byte) (h : l.rxne = true) :
    l.latch v = { l with err := true, rdr := (l.latch v).rdr, draws := (l.latch v).draws } ∧
      ((l.latch v).rdr = l.rdr ∨ (l.latch v).rdr = v) := by
  constructor
  · simp [Link.latch, h]
  · simp only [Link.latch]
    split
    · exact .inl rfl
    · exact .inr rfl

theorem symbolArrives_free {s : State} (v : Byte) (he : s.link.cfgEn = true) (hr : s.link.rxne = false) :
    symbolArrives v s = .next { s with link := { s.link with rdr := v, rxne := true } } := by
  rw [symbolArrives, State.onLink, Link.rx_ready v he, Link.latch_free v hr]

theorem symbolArrives_overrun {s : State} (v : Byte) (he : s.link.cfgEn = true) (hr : s.link.rxne = true) :
    ∃ t, symbolArrives v s = .next t ∧
      t = { s with link := { s.link with err := true, rdr := t.link.rdr, draws := t.link.draws } } ∧
      (t.link.rdr = s.link.rdr ∨ t.link.rdr = v) := by
  obtain ⟨hl, hrdr⟩ := Link.latch_overrun v hr
  refine ⟨s.onLink (Link.latch v), by rw [symbolArrives, State.onLink, Link.rx_ready v he]; rfl, ?_, hrdr⟩
  exact congrArg (fun l => { s with link := l }) hl

theorem symbolArrives_notReady {s : State} (v : Byte) (he : s.link.cfgEn = false) : symbolArrives v s = .next s := by
  rw [symbolArrives, State.onLink, Link.rx_notReady v he]

/-! ### Accepted operations, and what they come to -/

/-- `FLUSH` records in `rx_clean` whether its wait has succeeded, which is `tc` (R83). -/
theorem Link.rxClean_flush (p : Params) (l : Link) : (l.flush p).rxClean = (l.flush p).tc := by
  rw [Bool.eq_iff_iff]
  exact decide_eq_true_iff.trans (waitUntil_allSent p.tcWaitTicks l)

/-- With nothing in flight and an empty clean receive path, `FLUSH` records itself and does nothing else (R83). -/
theorem Link.flush_of_clean (p : Params) {l : Link} (htc : l.tc = true) (hr : l.rxne = false) (herr : l.err = false)
    (hrto : l.rto = false) (hc : l.rxClean = true) : l.flush p = { l with wire := l.wire ++ [.flushed] } := by
  rw [Link.flush, waitUntil_of_holds (cond := Link.allSent) htc]
  simp [hr, herr, hrto, hc]

/-- What is accepted is accepted behind an operation of the channel. -/
theorem Accepted.onLink {i : Instr} {s : State} (h : Accepted i s) {f : Link → Link} (hf : s.link.Follows (f s.link)) :
    Accepted i (s.onLink f) := by
  obtain ⟨hb, ho, he, hv⟩ := h
  exact ⟨hb, ho, fun hw => hf.cfgEn.trans (he hw), hv⟩

/-- On a clean path, with a symbol in `RDR` or the timeout condition set, `READB` does not wait (R79). -/
theorem Link.readb_of_canRead (p : Params) {l : Link} (hc : l.rxClean = true) (hr : l.canRead = true) :
    l.readb p = l.takeOrFail := by
  unfold Link.readb
  rw [readWait_of_canRead p hr]
  simp [Link.babbles, hc]

/-- The ranges of `ENC` and `COLLECT` (R47, R90). -/
theorem bufRange_and_symRange_iff (a n : Nat) :
    (bufRange a n && symRange n) = true ↔ ¬ (512 < a + n ∨ 4096 < 8 * n) := by
  simp [bufRange_iff, symRange_iff]

theorem Accepted.exec_enc {a n : Nat} {s : State} (h : Accepted (.enc a n) s) :
    exec (.enc a n) s = .next ((s.symLoad (encodeBytes s.cfg (s.bufRead a n))).setRes (8 * n)) := by
  obtain ⟨hb, hr, -⟩ := h
  exact offer_accepted _ hb ((bufRange_and_symRange_iff a n).2 hr) (by simp) (by simp)

theorem Accepted.exec_stb {a : Nat} {v : Byte} {s : State} (h : Accepted (.stb a v) s) :
    exec (.stb a v) s = .next (s.bufWrite a [v]) := by
  obtain ⟨hb, hr, -⟩ := h
  exact offer_accepted _ hb ((bufAddr_iff a).2 (Nat.lt_of_not_le hr)) (by simp) (by simp)

theorem Accepted.exec_collect {a cap : Nat} {s : State} {r : List Sym7 × Link} (h : Accepted (.collect a cap) s)
    (hres : (s.link.askForResponse s.cfg).response s.cfg = some r) :
    exec (.collect a cap) s = .next ({ s with link := r.2 }.storeResponse a cap r.1) := by
  have hw := h.cfgEn (by simp [touchesWire])
  obtain ⟨hb, hr, -⟩ := h
  refine (offer_accepted _ hb ((bufRange_and_symRange_iff a cap).2 hr) (fun _ => hw) (by simp)).trans ?_
  rw [hres]

/-- What an accepted `COLLECT` leaves when its response is `r` (R104). -/
theorem Accepted.collect_writes {a cap : Nat} {s : State} {r : List Sym7} {k : Link}
    (h : Accepted (.collect a cap) s) (hr : (s.link.askForResponse s.cfg).response s.cfg = some (r, k)) :
    ∃ t, exec (.collect a cap) s = .next t ∧ t.link = k ∧ s.link.Follows k ∧
      t = { s with link := t.link, sym := t.sym, symLen := t.symLen, buf := t.buf, res := t.res } ∧
      t.symLen = min r.length (8 * cap) ∧ t.res = ⟨false, BitVec.ofNat 16 (reportedCount s.cfg cap r.length)⟩ ∧
      (∀ j < t.symLen, some (t.symCell j) = ((r.take (8 * cap)).map (·.setWidth 8 : Sym7 → Byte))[j]?) ∧
      (∀ j, t.symLen ≤ j → t.symCell j = s.symCell j) ∧
      (∀ i < t.symLen / 8, some (t.bufByte (a + i)) =
        (decodeSyms s.cfg ((r.take (8 * cap)).map (·.setWidth 8)))[i]?) ∧
      ∀ x, (x < a ∨ a + t.symLen / 8 ≤ x) → t.bufByte x = s.bufByte x := by
  have hf := (Link.follows_askForResponse s.cfg s.link).trans (Link.follows_response s.cfg _ hr)
  exact ⟨_, h.exec_collect hr, rfl, hf, State.storeResponse_writes { s with link := k } a cap r⟩

/-- Symbol `8k + i` of what `ENC` loads carries bit `i` of the byte at `a + k` (R96). -/
theorem State.symCell_symLoad_encodeBytes (s : State) {a n k i : Nat} (hk : k < n) (hi : i < 8) :
    (s.symLoad (encodeBytes s.cfg (s.bufRead a n))).symCell (8 * k + i) =
      bitSym s.cfg ((s.bufByte (a + k)).getLsbD i) := by
  have hlt : 8 * k + i < (encodeBytes s.cfg (s.bufRead a n)).length := by simp; omega
  have hcell := symCell_symLoad_of_lt _ s _ hlt
  rw [getElem?_encodeBytes s.cfg _ k (by simpa using hk) i hi, getElem_bufRead] at hcell
  exact Option.some.inj hcell

/-! ### The count and the symbols of a response -/

theorem reportedCount_of_le (p : Params) {cap t : Nat} (h : t ≤ 8 * cap) : reportedCount p cap t = t / 8 :=
  if_pos h

theorem reportedCount_stored {p : Params} {cap t : Nat} (h : 8 * cap < t) (hp : p.overreadCount = .stored) :
    reportedCount p cap t = cap := by
  rw [reportedCount, if_neg (by omega), hp]

theorem reportedCount_total {p : Params} {cap t : Nat} (h : 8 * cap < t) (hp : p.overreadCount = .total) :
    reportedCount p cap t = min (t / 8) 0xFFFE := by
  rw [reportedCount, if_neg (by omega), hp]

/-- Where the capacity is used up, the count is at least the capacity, and it fits `RES.val` (R106). -/
theorem reportedCount_of_full (p : Params) {cap t : Nat} (hcap : cap ≤ 512) (h : 8 * cap ≤ t) :
    cap ≤ reportedCount p cap t ∧ reportedCount p cap t < 65536 ∧
      (p.overreadCount = .stored → reportedCount p cap t = cap) := by
  rcases h.eq_or_lt with rfl | h
  · rw [reportedCount_of_le p le_rfl]; omega
  · cases hp : p.overreadCount
    · rw [reportedCount_stored h hp]; exact ⟨le_rfl, by omega, fun _ => rfl⟩
    · rw [reportedCount_total h hp]; exact ⟨by omega, by omega, by simp⟩

/-- The symbols of a burst as `COLLECT` keeps them: masked to 7 bits, as many as fit (R57, R104). -/
theorem kept_of_burst (r : List Byte) (n : Nat) :
    ((r.map (·.setWidth 7)).take n).map (·.setWidth 8 : Sym7 → Byte) = (r.map (· &&& 0x7F)).take n := by
  rw [List.map_take, List.map_map]
  exact congrArg (List.take n) (List.map_congr_left fun v _ => setWidth_eight_seven v)

/-- Cells that read as the entries of a list, as many as it has, read as the list. -/
theorem map_symCell_range {s : State} {l : List Byte} (h : ∀ j < l.length, some (s.symCell j) = l[j]?) :
    (List.range l.length).map s.symCell = l := by
  refine List.ext_getElem (by simp) fun j _ hj => ?_
  have hcell := h j hj
  rw [List.getElem?_eq_getElem hj] at hcell
  simpa using hcell

/-! ### The end of the loop -/

/-- On an idle path that falls silent, or whose inter-byte timeout comes, the loop of `COLLECT` ends with what it has
(R104, R108). -/
theorem Link.readLoop_silent (p : Params) {l : Link} (n : Nat) (acc : List Sym7) {left : List Input}
    (he : l.cfgEn = true) (hs : l.sending = false) (hr : l.canRead = false) (hb : 0 < p.rxWaitTicks)
    (hq : l.envSilent = true) (hi : hostNext l.inputs = true ∧ left = l.inputs ∨ l.inputs = .env .rto :: left) :
    ∃ rto ticks draws, l.readLoop p (n + 1) acc =
      some (acc, { l with
        rto := rto, ticks := ticks, draws := draws, inputs := left, wire := l.wire ++ [.rxFail] }) := by
  have hx : l.rxne = false := (Bool.or_eq_false_iff.1 hr).1
  rw [readLoop_succ]
  rcases hi with ⟨hi, rfl⟩ | hi
  · rw [readWait_dry p hs hr hb hi]
    exact ⟨Config.freeBit l.draws, l.ticks + p.rxWaitTicks, l.draws + 1, by
      simp [Link.babbles, hq, takeOrFail_of_empty, hx, Res.sentinel]⟩
  · rw [readWait_rto p left he hs hr hb hi]
    exact ⟨Config.freeBit l.draws, l.ticks, l.draws + 1, by
      simp [Link.babbles, takeOrFail_of_empty, hx, Res.sentinel]⟩

/-- The channel after `COLLECT` has read a burst to its end on the path that `FLUSH` left clean and idle (R104, R105). -/
theorem Link.response_burst (p : Params) {l : Link} (r : List Byte) {rest left : List Input}
    (he : l.cfgEn = true) (hc : l.rxClean = true) (hs : l.sending = false) (hr : l.canRead = false)
    (hb : 0 < p.rxWaitTicks) (hq : l.envSilent = true) (hi : l.inputs = r.map (fun v => .env (.rx v)) ++ rest)
    (hend : hostNext rest = true ∧ left = rest ∨ rest = .env .rto :: left) :
    ∃ rdr rto ticks draws, l.response p =
      some (r.map (·.setWidth 7), { l with
        rdr := rdr, rto := rto, ticks := ticks, draws := draws, inputs := left,
        wire := l.wire ++ r.map (fun v => .rxTaken (v.setWidth 7)) ++ [.rxFail] }) := by
  have hfuel : l.inputs.length + 3 = rest.length + 3 + r.length := by rw [hi]; simp; omega
  obtain ⟨rdr, hburst⟩ := readLoop_burst p r rest (rest.length + 3) [] he hs hr hb hi
  obtain ⟨rto, ticks, draws, hlast⟩ := readLoop_silent p (rest.length + 2) (r.map (·.setWidth 7))
    (l := { l with rdr := rdr, inputs := rest, wire := l.wire ++ r.map fun v => .rxTaken (v.setWidth 7) })
    he hs hr hb hq hend
  exact ⟨rdr, rto, ticks, draws, by rw [response_clean p hc, hfuel, hburst]; exact hlast⟩

/-- An agenda of arrivals that ends with the host's next input or the timeout holds no event that overtakes the
transmitter. -/
theorem arrivals_ne_amid (r : List Byte) {rest left : List Input}
    (hend : hostNext rest = true ∧ left = rest ∨ rest = .env .rto :: left) (e : EnvEvent) (more : List Input) :
    r.map (fun v => .env (.rx v)) ++ rest ≠ .amid e :: more := by
  cases r with
  | cons v r => simp
  | nil =>
    rintro rfl
    rcases hend with ⟨h, -⟩ | h <;> cases h

end Sys2Proof.Machine

namespace Sys2Proof.Proofs

open Sys2Proof.Machine

/-! ### Words that are taken in -/

/-- Settles O5. -/
theorem stepRunsDecodedWord : Obligations.StepRunsDecodedWord := by
  intro s c rest i hi hd
  rw [step, hi]
  exact stepWord_of_decodes hd

/-- Settles O6: a command word decodes to its operation; a symbol arrives, whichever of its names the decoder finds. -/
theorem fetchWordRunsInstruction : Obligations.FetchWordRunsInstruction := by
  refine fun s i wf => ⟨fun w h => ?_, fun v h => ?_⟩
  · rw [step_withFetchWord, codeWordOfBits_cw32]
    exact stepWord_of_decodes (decodeCw_of_encode wf h)
  · rw [step_withFetchWord, codeWordOfBits_sym8, stepWord_sym8, exec_of_encode_sym8 h]

/-- Settles O16: a word that decodes spells a host operation, and that is refused exactly when it is not accepted. -/
theorem refusedExactlyWhen : Obligations.RefusedExactlyWhen := by
  intro s w rest hi
  rw [step_commandWord hi]
  cases hd : decodeCw w with
  | error e => simp
  | ok i =>
    refine (exec_refused_iff (isHostOp_of_decodeCw hd) (s.withInputs rest)).trans (not_accepted_iff.trans ?_)
    simp

/-! ### What a step and an instruction leave alone -/

/-- Settles O9. -/
theorem resetValues : Obligations.ResetValues := by
  have table (p : Params) (boot : Nat) : AsAfterReset (State.atPowerOn p boot) := by constructor <;> rfl
  refine ⟨fun p boot => ⟨table p boot, rfl⟩, table _ _, fun s rest hi => ?_⟩
  have hstep : step s = .next (s.poweredOn rest) := by rw [step, hi]; rfl
  exact ⟨_, hstep, by constructor <;> rfl, rfl, rfl⟩

/-- Settles O10: what a step does follows the channel it began with, but for a power-on. -/
theorem wireHistoryOnlyGrows : Obligations.WireHistoryOnlyGrows := by
  intro s t h hno
  cases step_effect h with
  | rests => exact List.prefix_rfl
  | transmits => exact (Link.follows_txStep s.link).wire
  | takesWord _ rest _ effect => exact effect.follows.wire
  | event e rest => exact (Link.follows_apply e { s.link with inputs := rest }).wire
  | busInit | hostStore => exact List.prefix_rfl
  | powerOn rest agenda => exact absurd agenda (hno rest)

/-- Settles O11. -/
theorem noSymbolLost : Obligations.NoSymbolLost := by
  refine ⟨fun s t h hpow hbus => ?_, fun i s t h hi => exec_symbolsSent_eq h hi⟩
  cases step_effect h with
  | rests | hostStore => exact List.prefix_rfl
  | transmits => rw [State.link_onLink, Link.symbolsSent_of_sent (Link.sent_txStep s.link)]
  | takesWord _ rest _ effect => exact effect.symbolsSent_prefix
  | event e rest =>
    rw [State.link_onLink, Link.symbolsSent_of_sent (Link.sent_apply e _)]
    exact List.prefix_rfl
  | busInit rest agenda => exact absurd agenda (hbus rest)
  | powerOn rest agenda => exact absurd agenda (hpow rest)

/-- Settles O13. -/
theorem crcUnitIsolated : Obligations.CrcUnitIsolated := by
  intro i hseed hupd hget s c v
  have key := exec_withCrc hseed hupd hget s c v
  refine ⟨fun t h => ?_, fun f h => ?_, fun r h => ?_⟩ <;> exact key.trans (by rw [h]; rfl)

/-- Settles O14. -/
theorem resultRegisterWriters : Obligations.ResultRegisterWriters := by
  intro i s t h
  cases i with
  | readb =>
    obtain ⟨⟨⟩, -⟩ := offer_eq_next h
    rcases Link.readb_cases s.cfg s.link with ⟨hf, -⟩ | ⟨hs, -⟩
    · exact .inr (.inr ⟨.inl rfl, hf⟩)
    · exact .inr (.inl ⟨rfl, hs⟩)
  | enc | dec | ldb =>
    obtain ⟨⟨⟩, -⟩ := offer_eq_next h
    exact .inr (.inr ⟨by simp, rfl⟩)
  | collect a cap =>
    obtain ⟨hrun, -⟩ := offer_eq_next h
    split at hrun <;> cases hrun
    exact .inr (.inr ⟨by simp, rfl⟩)
  | sendb | flush | sendBytes | flagCmd | flagTx | flagIdle | flagSleep | crcSeed | crcUpd | crcGet | stb =>
    obtain ⟨⟨⟩, -⟩ := offer_eq_next h
    exact .inl rfl
  | symBit0 | symBit1 | flagByteCmd | flagByteTx | flagByteIdle | flagByteSleep => cases h; exact .inl rfl

/-- Settles O15. -/
theorem memoryWriters : Obligations.MemoryWriters := by
  intro i s t h
  cases i with
  | enc =>
    obtain ⟨⟨⟩, -⟩ := offer_eq_next h
    exact ⟨.inl fun _ => rfl, .inr (by simp)⟩
  | collect => exact ⟨.inr (by simp), .inr (by simp)⟩
  | dec | crcGet | stb =>
    obtain ⟨⟨⟩, -⟩ := offer_eq_next h
    exact ⟨.inr (by simp), .inl ⟨rfl, fun _ => rfl⟩⟩
  | sendb | readb | flush | sendBytes | flagCmd | flagTx | flagIdle | flagSleep | crcSeed | crcUpd | ldb =>
    obtain ⟨⟨⟩, -⟩ := offer_eq_next h
    exact ⟨.inl fun _ => rfl, .inl ⟨rfl, fun _ => rfl⟩⟩
  | symBit0 | symBit1 | flagByteCmd | flagByteTx | flagByteIdle | flagByteSleep =>
    cases h
    exact ⟨.inl fun _ => rfl, .inl ⟨rfl, fun _ => rfl⟩⟩

/-- Settles O19: the second initialisation finds every field as it would set it. -/
theorem busInitialisation : Obligations.BusInitialisation := by
  intro s rest hi hb
  have hstep (u : State) (more : List Input) (hu : u.link.inputs = .busInit :: more) (hidle : u.busy = false) :
      step u = .next ((u.withInputs more).onLink (Link.busInit u.cfg)) := by
    rw [step, hu]
    exact offer_accepted _ hidle rfl (by simp) (by simp)
  exact ⟨_, hstep s rest hi hb, rfl, fun more => hstep _ more rfl hb⟩

/-! ### Steps of the environment -/

/-- Settles O20. -/
theorem shiftStep : Obligations.ShiftStep := by
  refine fun s => ⟨fun rest hi => ⟨fun htxe hbusy => ?_, fun h => ?_⟩, fun hi hh htxe hbusy => ?_⟩
  · exact step_env hi (Link.shift_enabled htxe hbusy)
  · exact step_env hi (Link.shift_disabled h)
  · have ht : step s = .next (s.onLink Link.txStep) := by
      rw [step, hi]; simp [stepIdle, hh, Link.sending, htxe]
    have hl : s.link.txStep = s.link.shift := by rw [Link.txStep, hbusy, if_neg Bool.false_ne_true]
    refine ⟨_, ht, ?_⟩
    rw [State.link_onLink, hl, Link.shift_enabled htxe hbusy]
    exact ⟨rfl, rfl, rfl, rfl⟩

/-- Settles O21: an enabled E-DONE is a latch of the echo in the channel whose shifter is free. -/
theorem doneStep : Obligations.DoneStep := by
  refine fun s echo rest hi => ⟨fun hbusy => ?_, fun hbusy => step_env hi (Link.done_disabled echo hbusy)⟩
  refine ⟨_, step_env hi (Link.done_enabled echo hbusy), rfl, fun h => ?_, fun h => ?_, fun h => ?_, fun h => ?_⟩
  · simp [h]
  · simp [h]
  · refine Link.rdr_err_latch_of_free echo ?_
    exact h
  · refine And.imp_left (congrArg Link.err) (Link.latch_overrun echo ?_)
    exact h

/-- Settles O22. -/
theorem receiveStep : Obligations.ReceiveStep := by
  intro s v rest hi
  have hstep : step s = symbolArrives v (s.withInputs rest) := step_env hi rfl
  rw [hstep]
  exact ⟨fun he hr => symbolArrives_free v he hr, fun he hr => symbolArrives_overrun v he hr,
    fun he => symbolArrives_notReady v he⟩

/-- Settles O23. -/
theorem timeoutAndErrorSteps : Obligations.TimeoutAndErrorSteps :=
  fun _ _ =>
    ⟨fun hi => ⟨fun he => step_env hi (Link.raiseRto_ready he), fun he => step_env hi (Link.raiseRto_notReady he)⟩,
      fun hi => ⟨fun he => step_env hi (Link.raiseErr_ready he), fun he => step_env hi (Link.raiseErr_notReady he)⟩⟩

/-- Settles O24: each of the six rows is the arrival of its value. -/
theorem symbolsArrive : Obligations.SymbolsArrive := by
  refine ⟨fun s v rest => stepWord_sym8 v (s.withInputs rest), fun s i v hrow => ?_⟩
  have hexec : exec i s = symbolArrives v s := by
    simp only [List.mem_cons, Prod.mk.injEq, List.not_mem_nil, or_false] at hrow
    rcases hrow with ⟨rfl, rfl⟩ | ⟨rfl, rfl⟩ | ⟨rfl, rfl⟩ | ⟨rfl, rfl⟩ | ⟨rfl, rfl⟩ | ⟨rfl, rfl⟩ <;> rfl
  rw [hexec]
  exact ⟨fun he hr => symbolArrives_free v he hr, fun he hr => symbolArrives_overrun v he hr,
    fun he => symbolArrives_notReady v he⟩

/-! ### `SENDB`, `READB` and `FLUSH` -/

/-- Settles O26. -/
theorem sendbFillsFreeBuffer : Obligations.SendbFillsFreeBuffer := by
  intro s v ha htxe
  have hw : s.link.waitUntil Link.canSend s.cfg.txWaitTicks = (.held, s.link) := Link.waitUntil_of_holds htxe _
  refine ⟨_, ha.exec_sendb, ?_⟩
  rw [State.onLink, Link.sendb_of_held v (by rw [hw]), hw]
  rfl

/-- Settles O29. -/
theorem readbTakesBufferedSymbol : Obligations.ReadbTakesBufferedSymbol := by
  intro s ha hc hr
  have hmask : (s.link.rdr.setWidth 7).setWidth 16 = s.link.rdr.setWidth 16 &&& 0x007F := by
    generalize s.link.rdr = v; revert v; decide
  rw [ha.exec_readb, Link.readb_of_rxne s.cfg hc hr, Link.takeOrFail_of_rxne hr, hmask]

/-- Settles O30. -/
theorem readbFailsOnTimeout : Obligations.ReadbFailsOnTimeout := by
  intro s ha hc hr hrto
  have hk := (Link.readb_of_canRead s.cfg hc (by simp [Link.canRead, hrto])).trans (Link.takeOrFail_of_empty hr)
  exact ⟨_, ha.exec_readb, by rw [hk]; rfl⟩

/-- Settles O34: the first `FLUSH` has left everything as the second one would. -/
theorem flushEmptiesReceivePath : Obligations.FlushEmptiesReceivePath := by
  intro s ha
  have hf := Link.follows_flush s.cfg s.link
  have hclean := Link.rxClean_flush s.cfg s.link
  refine ⟨_, ha.exec_flush, rfl, hf, rfl, rfl, rfl, hclean, by simp [Link.flush], fun hc => ?_⟩
  have hagain := Link.flush_of_clean s.cfg (hclean.symm.trans hc) rfl rfl rfl hc
  exact (ha.onLink hf).exec_flush.trans (congrArg (fun l => Host.Outcome.next { s with link := l }) hagain)

/-! ### `ENC`, `STB` and `COLLECT` -/

/-- Settles O41. -/
theorem encFillsSymbolMemory : Obligations.EncFillsSymbolMemory := by
  intro s a n ha
  have hlen : (encodeBytes s.cfg (s.bufRead a n)).length = 8 * n := by simp
  refine ⟨_, ha.exec_enc, by rw [← hlen]; rfl, fun k hk i hi => ?_, fun j hj => ?_⟩
  · exact State.symCell_symLoad_encodeBytes s hk hi
  · exact State.symCell_symLoad_of_le _ s j (by omega)

/-- Settles O59. -/
theorem stbStoresByte : Obligations.StbStoresByte := by
  refine ⟨fun s a v ha => ⟨_, ha.exec_stb, rfl, ?_, fun x hx => ?_⟩, fun s a v h => ?_, fun s a v rest => rfl⟩
  · exact Option.some.inj (State.bufByte_bufWrite_add a [v] s 0 Nat.one_pos)
  · exact State.bufByte_bufWrite_of_outside a [v] s x (by rw [List.length_singleton]; omega)
  · exact (exec_refused_iff rfl s).2 (not_accepted_iff.2 (.inr (.inl h)))

/-- Settles O49: on the clean idle path that its `FLUSH` leaves, `COLLECT` reads the burst to its end. -/
theorem collectUnderTxHealthy : Obligations.CollectUnderTxHealthy := by
  intro s a cap r rest left hs ha hh hq hi hend stored
  obtain ⟨-, -, -, -, -, budget, -⟩ := hs.lawful
  obtain ⟨wire, clean, amid, ready, idle, empty, err, silent, inv⟩ :=
    Link.askForResponse_healthy hs.link (ha.cfgEn (by simp [touchesWire])) hh
  have agenda := (amid.eq (hi ▸ arrivals_ne_amid r hend)).trans hi
  obtain ⟨rdr, rto, ticks, draws, hres⟩ :=
    Link.response_burst s.cfg r ready clean idle empty budget (silent.trans hq) agenda hend
  obtain ⟨t, hexec, hlink, hf, hframe, hlen, hres, hcells, habove, hbytes, houtside⟩ := ha.collect_writes hres
  rw [List.length_map] at hlen hres
  rw [kept_of_burst] at hcells hbytes
  rw [show t.symLen = stored from hlen] at hframe hcells habove hbytes houtside
  have fits : stored ≤ 8 * cap := Nat.min_le_right _ _
  have taken : ((r.map (· &&& 0x7F)).take (8 * cap)).length = stored := by simp [stored, Nat.min_comm]
  have tc := inv.cleanMeans clean
  obtain ⟨tsrBusy, txe⟩ := Bool.or_eq_false_iff.1 idle
  obtain ⟨rxne, -⟩ := Bool.or_eq_false_iff.1 empty
  refine ⟨t, hexec, ?_⟩
  rw [hlink] at hframe ⊢
  refine ⟨by rw [wire], rfl, hf, by simpa using txe, tsrBusy, tc, rxne, err, clean, hframe, fun j hj => ?_, habove,
    fun i hk => ?_, houtside, by rw [hres], fun h => ?_, fun h hp => ?_, fun h hp => ?_⟩
  · rw [hcells j hj, List.getElem?_take_of_lt (by omega), List.getElem?_map]
  · rw [hbytes i hk, getElem?_decodeSyms_take _ _ _ _ (by rw [taken]; exact hk)]
  · rw [hres, reportedCount_of_le _ h]
  · rw [hres, reportedCount_stored h hp]
  · rw [hres, reportedCount_total h hp]

/-- Settles O50: the response has an end, and what is kept of it has 7 bits. -/
theorem collectReturnsIfSilent : Obligations.CollectReturnsIfSilent := by
  intro s a cap ha hq
  obtain ⟨⟨r, k⟩, hr⟩ := Link.response_returns s.cfg s.link hq
  obtain ⟨t, hexec, hlink, hf, hframe, hlen, hres, hcells, habove, hbytes, houtside⟩ := ha.collect_writes hr
  obtain ⟨-, hrange, -⟩ := ha
  have hcap : cap ≤ 512 := by simp only [outOfRange] at hrange; omega
  generalize hkept : (r.take (8 * cap)).map (·.setWidth 8 : Sym7 → Byte) = kept at hcells hbytes
  have hkl : t.symLen = kept.length := by rw [hlen, ← hkept]; simp [Nat.min_comm]
  refine ⟨t, hexec, by rw [hres], by omega, hframe, hlink ▸ hf, fun j hj => ?_, habove, ?_, houtside, fun h => ?_,
    fun h => ?_, fun h hp => ?_⟩
  · have hmem : t.symCell j ∈ kept := List.mem_of_getElem? (hcells j hj).symm
    rw [← hkept] at hmem
    obtain ⟨v, -, hv⟩ := List.mem_map.1 hmem
    rw [← hv, BitVec.toNat_setWidth]
    have := v.isLt
    omega
  · rwa [hkl, map_symCell_range (hkl ▸ hcells), ← hkl]
  · rw [hres, reportedCount_of_le _ (by omega), show r.length = t.symLen by omega]
  · obtain ⟨hge, hlt, -⟩ := reportedCount_of_full s.cfg hcap (show 8 * cap ≤ r.length by omega)
    rw [hres, BitVec.toNat_ofNat, Nat.mod_eq_of_lt hlt]
    exact hge
  · obtain ⟨-, hlt, heq⟩ := reportedCount_of_full s.cfg hcap (show 8 * cap ≤ r.length by omega)
    rw [hres, BitVec.toNat_ofNat, Nat.mod_eq_of_lt hlt]
    exact heq hp

end Sys2Proof.Proofs

/-! What `SENDBYTES`, `CRC.UPD` and `LDB` come to once they are accepted: they read a range of `BUF`, or one cell of it,
and write the channel, `CRC` or `RES` alone. -/

namespace Sys2Proof.Machine

theorem Accepted.exec_sendBytes {a n : Nat} {s : State} (h : Accepted (.sendBytes a n) s) :
    exec (.sendBytes a n) s = .next (s.onLink (Link.sendSyms s.cfg (encodeBytes s.cfg (s.bufRead a n)))) := by
  have hw := h.cfgEn (by simp [touchesWire])
  obtain ⟨hb, hr, -⟩ := h
  exact offer_accepted _ hb ((bufRange_iff a n).2 (Nat.le_of_not_lt hr)) (fun _ => hw) (by simp)

theorem Accepted.exec_crcUpd {a n : Nat} {s : State} (h : Accepted (.crcUpd a n) s) :
    exec (.crcUpd a n) s = .next { s with crc := crcBytes s.cfg.crcBitOrder s.crc (s.bufRead a n) } := by
  obtain ⟨hb, hr, -, hv⟩ := h
  exact offer_accepted _ hb ((bufRange_iff a n).2 (Nat.le_of_not_lt hr)) (by simp) (fun _ => hv (by simp))

theorem Accepted.exec_ldb {a : Nat} {s : State} (h : Accepted (.ldb a) s) :
    exec (.ldb a) s = .next (s.setRes (s.bufByte a).toNat) := by
  obtain ⟨hb, hr, -⟩ := h
  exact offer_accepted _ hb ((bufAddr_iff a).2 (Nat.lt_of_not_le hr)) (by simp) (by simp)

/-- Acceptance does not depend on `RES` (R131). -/
theorem Accepted.setRes {i : Instr} {s : State} (h : Accepted i s) (v : Nat) : Accepted i (s.setRes v) := h

theorem State.setRes_setRes (v w : Nat) (s : State) : (s.setRes v).setRes w = s.setRes w := rfl

/-- The symbols of a range of `BUF`, byte by byte in ascending address order (R93, R98). -/
theorem encodeBytes_bufRead (p : Params) (s : State) (a n : Nat) :
    encodeBytes p (s.bufRead a n) = (List.range n).flatMap fun k => encByte p (s.bufByte (a + k)) := by
  simp only [encodeBytes, State.bufRead, List.flatMap_map]

/-- The CRC of a range of `BUF`, byte by byte in ascending address order (R114, R117). -/
theorem crcBytes_bufRead (o : CrcBitOrder) (c : Half) (s : State) (a n : Nat) :
    crcBytes o c (s.bufRead a n) = (List.range n).foldl (fun c k => crcByte o c (s.bufByte (a + k))) c := by
  simp only [crcBytes, State.bufRead, List.foldl_map]

/-- The symbols of at least one byte are at least one symbol (R93). -/
theorem encodeBytes_bufRead_ne_nil (p : Params) (s : State) (a : Nat) {n : Nat} (hn : 0 < n) :
    encodeBytes p (s.bufRead a n) ≠ [] :=
  List.ne_nil_of_length_pos (by simpa using hn)

end Sys2Proof.Machine

namespace Sys2Proof.Proofs

open Sys2Proof.Machine

/-- Settles O45: `SENDBYTES` is one healthy `SENDB` for each symbol of the bytes, and none for no bytes. -/
theorem sendBytesUnderTxHealthy : Obligations.SendBytesUnderTxHealthy := by
  intro s a n ha hh
  obtain ⟨sent, amid⟩ := Link.sendSyms_healthy s.cfg (encodeBytes s.cfg (s.bufRead a n)) hh
  refine ⟨_, ha.exec_sendBytes, rfl, ?_, amid, ?_, fun hn => ?_⟩
  · rw [State.link_onLink, sent, encodeBytes_bufRead, List.map_flatMap]
  · rintro rfl
    rfl
  · exact Link.rxClean_sendSyms_healthy s.cfg _ hh (encodeBytes_bufRead_ne_nil s.cfg s a hn)

/-- Settles O57: the fold over the bytes that are read is the fold over their addresses. -/
theorem crcUpdFoldsBytes : Obligations.CrcUpdFoldsBytes := by
  refine fun s a n ha => ⟨_, ha.exec_crcUpd, rfl, crcBytes_bufRead _ _ s a n, ?_⟩
  rintro rfl
  rfl

/-- Settles O60: the first `LDB` has written `RES` alone, so the second is accepted and reads the same cell. -/
theorem ldbLoadsByte : Obligations.LdbLoadsByte := by
  refine ⟨fun s a ha => ⟨?_, ?_⟩, fun s a h => ?_⟩
  · rw [ha.exec_ldb, State.setRes, BitVec.ofNat_toNat]
  · rw [ha.exec_ldb]
    exact (ha.setRes _).exec_ldb.trans (by rw [State.bufByte_setRes, State.setRes_setRes])
  · exact (exec_refused_iff rfl s).2 (not_accepted_iff.2 (.inr (.inl h)))

end Sys2Proof.Proofs

/-! The decoder and the encoder, each as the inverse of the other; which command words the decoder rejects; and what a
`FLAG` operation comes to once it is accepted. -/

namespace Sys2Proof.Machine

/-! ### The decoder on what the encoder makes -/

/-- Where the six values are distinct, the decoder finds the one name a symbol of the table has (R58, R60). -/
theorem decodeSym_of_encode {p : Params}
    (hp : [p.symBit0, p.symBit1, p.flagCmd, p.flagTx, p.flagIdle, p.flagSleep].Nodup) {i : Instr} {v : Byte}
    (h : encodeWith p i = .sym8 v) : decodeSym p v = .ok i := by
  -- read backwards, the list says that each value differs from those the decoder tries before it
  have hdiff := List.nodup_reverse.2 hp
  simp only [List.reverse_cons, List.reverse_nil, List.nil_append, List.cons_append, List.nodup_cons, List.mem_cons,
    not_or] at hdiff
  cases i with
  | symBit0 | symBit1 | flagByteCmd | flagByteTx | flagByteIdle | flagByteSleep => cases h; simp [decodeSym, hdiff]
  | _ => cases h

theorem decodeWith_encodeWith {p : Params}
    (hp : [p.symBit0, p.symBit1, p.flagCmd, p.flagTx, p.flagIdle, p.flagSleep].Nodup) {i : Instr}
    (hi : i.WellFormed) : decodeWith p (encodeWith p i) = .ok i := by
  cases h : encodeWith p i with
  | cw32 w => exact decodeCw_of_encode hi h
  | sym8 v => exact decodeSym_of_encode hp h

/-! ### The encoder on what the decoder reads -/

/-- A guarded instruction is read exactly when the guard holds (R64 (b)). -/
theorem whenUnusedZero_eq_ok_iff {ok : Bool} {i j : Instr} : whenUnusedZero ok j = .ok i ↔ ok = true ∧ j = i := by
  cases ok <;> simp [whenUnusedZero]

/-- The immediate is the whole field `b` where `b[11:8]` is zero (R63). -/
theorem toNat_cwImm_of_high_zero {w : BitVec 32} (h : cwB w / 256 = 0) : (cwImm w).toNat = cwB w := by
  simp only [cwB, cwImm, BitVec.extractLsb'_toNat, Nat.shiftRight_zero] at h ⊢
  omega

/-- A command word spells an instruction that is well formed and whose word it is (R61 to R64). -/
theorem wellFormed_encodeWith_of_decodeCw (p : Params) {w : BitVec 32} {i : Instr} (h : decodeCw w = .ok i) :
    i.WellFormed ∧ encodeWith p i = .cw32 w := by
  have fields {op : BitVec 8} {a b : Nat} (hop : cwOp w = op.toNat) (ha : a = cwA w) (hb : b = cwB w) :
      CodeWord.cw32 (mkCw op a b) = .cw32 w := congrArg _ (Laws.mkCw_of_fields w op a b hop ha hb)
  unfold decodeCw at h
  split at h <;> rename_i hop
  -- a reserved operation number
  case h_17 => cases h
  -- two operands
  case h_4 | h_5 | h_6 | h_11 | h_13 =>
    cases h
    exact ⟨⟨Laws.cwA_lt w, Laws.cwB_lt w⟩, fields hop rfl rfl⟩
  all_goals
    obtain ⟨unused, rfl⟩ := whenUnusedZero_eq_ok_iff.1 h
    simp only [Bool.and_eq_true, beq_iff_eq] at unused
  -- an immediate, without and with an address
  case h_1 => exact ⟨trivial, fields hop unused.1.symm (toNat_cwImm_of_high_zero unused.2)⟩
  case h_15 => exact ⟨Laws.cwA_lt w, fields hop rfl (toNat_cwImm_of_high_zero unused)⟩
  -- an address alone
  case h_12 | h_14 | h_16 => exact ⟨Laws.cwA_lt w, fields hop rfl unused.symm⟩
  -- no operand
  all_goals exact ⟨trivial, fields hop unused.1.symm unused.2.symm⟩

/-- Every name of a symbol is well formed. -/
theorem wellFormed_of_decodeSym {p : Params} {v : Byte} {i : Instr} (h : decodeSym p v = .ok i) : i.WellFormed := by
  unfold decodeSym at h
  split_ifs at h <;> cases h <;> trivial

theorem wellFormed_encodeWith_of_decodeWith {p : Params} {c : CodeWord} {i : Instr} (h : decodeWith p c = .ok i) :
    i.WellFormed ∧ encodeWith p i = c := by
  cases c with
  | cw32 w => exact wellFormed_encodeWith_of_decodeCw p h
  | sym8 v => exact ⟨wellFormed_of_decodeSym h, encodeWith_of_decodeSym h⟩

/-! ### Words that are rejected -/

/-- An operation number other than the sixteen of R62 is reserved (R64 (a)). -/
theorem decodeCw_of_reserved {w : BitVec 32}
    (h : cwOp w ∉ [0x01, 0x02, 0x03, 0x10, 0x11, 0x12, 0x13, 0x14, 0x15, 0x16, 0x17, 0x20, 0x21, 0x22, 0x30, 0x31]) :
    decodeCw w = .error .reservedOp := by
  unfold decodeCw
  split
  case h_17 => rfl
  all_goals rename_i hop; simp [hop] at h

/-- An operation without operands uses neither `a` nor `b` (R62, R64 (b)). -/
theorem decodeCw_of_noOperand {w : BitVec 32} (hop : cwOp w ∈ [0x02, 0x03, 0x13, 0x14, 0x15, 0x16])
    (h : cwA w ≠ 0 ∨ cwB w ≠ 0) : decodeCw w = .error .unusedFieldNotZero := by
  have unused : (cwA w == 0 && cwB w == 0) = false := by simpa [← not_and_or] using h
  simp only [List.mem_cons, List.not_mem_nil, or_false] at hop
  rcases hop with hop | hop | hop | hop | hop | hop <;> simp [decodeCw, hop, unused, whenUnusedZero]

/-- `SENDB` uses the lowest 8 bits alone (R63, R64 (b)). -/
theorem decodeCw_of_sendb {w : BitVec 32} (hop : cwOp w = 0x01) (h : cwA w ≠ 0 ∨ 256 ≤ cwB w) :
    decodeCw w = .error .unusedFieldNotZero := by
  have unused : (cwA w == 0 && cwB w / 256 == 0) = false := by
    rw [Bool.and_eq_false_iff, beq_eq_false_iff_ne, beq_eq_false_iff_ne]
    omega
  simp [decodeCw, hop, unused, whenUnusedZero]

/-- `CRC.SEED`, `CRC.GET` and `LDB` do not use `b` (R62, R64 (b)). -/
theorem decodeCw_of_addressOnly {w : BitVec 32} (hop : cwOp w ∈ [0x20, 0x22, 0x31]) (h : cwB w ≠ 0) :
    decodeCw w = .error .unusedFieldNotZero := by
  simp only [List.mem_cons, List.not_mem_nil, or_false] at hop
  rcases hop with hop | hop | hop <;> simp [decodeCw, hop, h, whenUnusedZero]

/-- `STB` does not use `b[11:8]` (R63, R64 (b)). -/
theorem decodeCw_of_stb {w : BitVec 32} (hop : cwOp w = 0x30) (h : 256 ≤ cwB w) :
    decodeCw w = .error .unusedFieldNotZero := by
  have unused : cwB w / 256 ≠ 0 := by omega
  simp [decodeCw, hop, unused, whenUnusedZero]

/-- A command word that the decoder rejects is refused, in whatever state it is offered (R64, R131). -/
theorem step_of_decodeCw_error {s : State} {w : BitVec 32} {rest : List Input} {e : DecodeError}
    (hi : s.link.inputs = .word (.cw32 w) :: rest) (h : decodeCw w = .error e) :
    step s = .refused (refusalOfDecode e) := by
  rw [step_commandWord hi, h]

/-! ### Flags -/

theorem flagSyms_encoded {p : Params} (h : p.flagEncoded = true) (f : Byte) : flagSyms p f = encByte p f := if_pos h

theorem flagSyms_raw {p : Params} (h : p.flagEncoded = false) (f : Byte) : flagSyms p f = [f] := by simp [flagSyms, h]

/-- A flag goes on the wire as at least one symbol (R89). -/
theorem flagSyms_ne_nil (p : Params) (f : Byte) : flagSyms p f ≠ [] := by
  cases h : p.flagEncoded with
  | false => simp [flagSyms_raw h]
  | true => exact List.ne_nil_of_length_pos (by simp [flagSyms_encoded h])

/-- An accepted `FLAG` operation sends the symbols of its flag (R100 to R103). -/
theorem Accepted.exec_flag {i : Instr} {f : Byte} {s : State}
    (hf : (i, f) ∈ [(.flagCmd, s.cfg.flagCmd), (.flagTx, s.cfg.flagTx), (.flagIdle, s.cfg.flagIdle),
      (.flagSleep, s.cfg.flagSleep)])
    (h : Accepted i s) : exec i s = .next (s.onLink (Link.sendSyms s.cfg (flagSyms s.cfg f))) := by
  simp only [List.mem_cons, Prod.mk.injEq, List.not_mem_nil, or_false] at hf
  rcases hf with ⟨rfl, rfl⟩ | ⟨rfl, rfl⟩ | ⟨rfl, rfl⟩ | ⟨rfl, rfl⟩ <;>
    exact h.offer_wire (by simp [touchesWire]) _

end Sys2Proof.Machine

namespace Sys2Proof.Proofs

open Sys2Proof.Machine

/-- Settles O2: a command word gives back the fields it is made of, and a symbol has one name where the six values are
distinct, as the default ones are. -/
theorem decodeInvertsEncode : Obligations.DecodeInvertsEncode :=
  ⟨fun _ hi => decodeWith_encodeWith (by decide) hi, fun _ hp _ hi => decodeWith_encodeWith hp hi⟩

/-- Settles O3: a command word is made from its fields, and a name has its symbol as its value. -/
theorem encodeInvertsDecode : Obligations.EncodeInvertsDecode :=
  fun _ _ _ h => wellFormed_encodeWith_of_decodeWith h

/-- Settles O4: the fields of the decoder are those of the number, and the decoder rejects each of the five shapes. -/
theorem malformedWordsRefused : Obligations.MalformedWordsRefused := by
  intro s w rest hi
  simp only [← Laws.cwOp_eq_div, ← Laws.cwA_eq_mod, ← Laws.cwB_eq_mod]
  exact ⟨fun hop => step_of_decodeCw_error hi (decodeCw_of_reserved hop),
    fun hop h => step_of_decodeCw_error hi (decodeCw_of_noOperand hop h),
    fun hop h => step_of_decodeCw_error hi (decodeCw_of_sendb hop h),
    fun hop h => step_of_decodeCw_error hi (decodeCw_of_addressOnly hop h),
    fun hop h => step_of_decodeCw_error hi (decodeCw_of_stb hop h)⟩

/-- Settles O47: a `FLAG` operation is one healthy `SENDB` for each symbol of its flag, of which there is at least
one. -/
theorem flagsUnderTxHealthy : Obligations.FlagsUnderTxHealthy := by
  intro s i f hf ha hh
  obtain ⟨sent, amid⟩ := Link.sendSyms_healthy s.cfg (flagSyms s.cfg f) hh
  refine ⟨_, ha.exec_flag hf, rfl, ?_, amid, fun henc => ?_, fun hraw => ?_⟩
  · exact Link.rxClean_sendSyms_healthy s.cfg _ hh (flagSyms_ne_nil s.cfg f)
  · rw [State.link_onLink, sent, flagSyms_encoded henc]
  · rw [State.link_onLink, sent, flagSyms_raw hraw, List.map_singleton]

/-- Settles O1: each word is decoded, and what it decodes to has it as its word. -/
theorem workedCommandWords : Obligations.WorkedCommandWords := by
  have both {c : CodeWord} {i : Instr} (h : decode c = .ok i) : decode c = .ok i ∧ encode i = c :=
    ⟨h, (wellFormed_encodeWith_of_decodeWith h).2⟩
  exact ⟨both (by decide), both (by decide), both (by decide), both (by decide), both (by decide)⟩

end Sys2Proof.Proofs

/-! `READB` on a clean idle path and on any other, and what an operation that hands symbols to the transmitter comes to
once it is accepted. -/

namespace Sys2Proof.Machine

/-! ### `READB` -/

/-- The 7-bit mask of a received symbol, zero-extended (R79). -/
theorem setWidth_setWidth_seven (v : Byte) : (v.setWidth 7).setWidth 16 = v.setWidth 16 &&& 0x007F := by
  revert v; decide

/-- With a clean path, a `READB` whose wait does not end in a symbol under no law takes what `RDR` holds or fails
(R79). -/
theorem Link.readb_of_readWait {p : Params} {l k : Link} {w : WaitEnd} (hw : l.readWait p = (w, k))
    (hb : Link.babbles (w, k) = false) (hc : k.rxClean = true) : l.readb p = k.takeOrFail := by
  unfold Link.readb
  rw [hw]
  simp [hb, hc]

theorem Link.canRead_of_idle {l : Link} (hr : l.rxne = false) (hrto : l.rto = false) : l.canRead = false := by
  simp [Link.canRead, hr, hrto]

@[simp] theorem Link.rxClean_hearBabble (l : Link) : l.hearBabble.rxClean = l.rxClean :=
  rxClean_apply (.rx (Config.freeByte l.draws)) { l with draws := l.draws + 1 }

/-- `READB` leaves `rx_clean` alone (R78). -/
@[simp] theorem Link.rxClean_readb (p : Params) (l : Link) : (l.readb p).2.rxClean = l.rxClean := by
  have heard : (if Link.babbles (l.readWait p) then (l.readWait p).2.hearBabble else (l.readWait p).2).rxClean =
      l.rxClean := by
    split <;> simp
  unfold Link.readb
  simp only
  generalize (if Link.babbles (l.readWait p) then (l.readWait p).2.hearBabble else (l.readWait p).2) = k at heard ⊢
  split
  · exact (rxClean_takeOrFail k).trans heard
  · exact (rxClean_takeUnclean k).trans heard

/-! ### Transmission -/

/-- An accepted operation that hands symbols to the transmitter, other than `COLLECT`, is one `send_syms` (R75, R86,
R98, R100 to R103). -/
theorem Accepted.exec_transmits {i : Instr} {s : State}
    (hi : (∃ v, i = .sendb v) ∨ (∃ a n, i = .sendBytes a n) ∨ i = .flagCmd ∨ i = .flagTx ∨ i = .flagIdle ∨
      i = .flagSleep)
    (h : Accepted i s) : ∃ syms, exec i s = .next (s.onLink (Link.sendSyms s.cfg syms)) := by
  rcases hi with ⟨v, rfl⟩ | ⟨a, n, rfl⟩ | rfl | rfl | rfl | rfl
  · exact ⟨[v], h.exec_sendb⟩
  · exact ⟨_, h.exec_sendBytes⟩
  · exact ⟨_, h.exec_flag (f := s.cfg.flagCmd) (by simp)⟩
  · exact ⟨_, h.exec_flag (f := s.cfg.flagTx) (by simp)⟩
  · exact ⟨_, h.exec_flag (f := s.cfg.flagIdle) (by simp)⟩
  · exact ⟨_, h.exec_flag (f := s.cfg.flagSleep) (by simp)⟩

end Sys2Proof.Machine

namespace Sys2Proof.Proofs

open Sys2Proof.Machine

/-- Settles O31: the arrival ends the wait with its symbol in `RDR`; on a silent line the budget passes and `RDR` stays
empty. -/
theorem readbWithoutTime : Obligations.ReadbWithoutTime := by
  intro s hs ha hc hr hrto
  obtain ⟨-, -, -, -, -, budget, -⟩ := hs.lawful
  have ready := ha.cfgEn (.inr (.inl rfl))
  have quiet := hs.link.not_sending hc
  have idle := Link.canRead_of_idle hr hrto
  refine ⟨fun v rest hi => ?_, fun hi silent => ?_⟩
  · have hk := (Link.readb_of_readWait (Link.readWait_rx s.cfg v rest ready quiet idle budget hi) rfl hc).trans
      (Link.takeOrFail_of_rxne rfl)
    refine ⟨_, ha.exec_readb, ?_⟩
    rw [hk, setWidth_setWidth_seven]
    exact ⟨rfl, rfl, rfl, hc, rfl⟩
  · have hk := (Link.readb_of_readWait (Link.readWait_dry s.cfg quiet idle budget hi)
      (by simp [Link.babbles, silent]) hc).trans (Link.takeOrFail_of_empty hr)
    refine ⟨_, ha.exec_readb, ?_⟩
    rw [hk]
    exact ⟨rfl, rfl, rfl, hc, hr⟩

/-- Settles O33. -/
theorem readbResultRange : Obligations.ReadbResultRange :=
  fun s ha => ⟨_, ha.exec_readb, rfl, Link.follows_readb s.cfg s.link, Link.rxClean_readb s.cfg s.link,
    Link.readb_cases s.cfg s.link⟩

/-- Settles O44: handing over any symbols touches the channel alone, and `W` only grows under it. -/
theorem transmittersTouchOnlyTheChannel : Obligations.TransmittersTouchOnlyTheChannel := by
  intro s i hi ha
  obtain ⟨syms, hexec⟩ := ha.exec_transmits hi
  exact ⟨_, hexec, rfl, Link.follows_sendSyms s.cfg syms s.link⟩

end Sys2Proof.Proofs

/-! The codec on whole streams and on the machine, `SENDBYTES` in two parts, and when an instruction or a step does not
return: `COLLECT` on a line that never falls silent, and nothing else. -/

namespace Sys2Proof.Machine

/-! ### The codec -/

/-- Symbol `i` of an encoded byte carries its bit `i` (R91, R92). -/
theorem getElem?_encByte (p : Params) (x : Byte) {i : Nat} (hi : i < 8) :
    (encByte p x)[i]? = some (bitSym p (x.getLsbD i)) := by
  simp [encByte, hi]

/-- Bit `i` of byte `k` of a decoded stream is read from symbol `8k + i` (R94). -/
theorem getLsbD_decodeSyms (p : Params) (s : List Byte) {k i : Nat} (hk : k < s.length / 8) (hi : i < 8) :
    (decodeSyms p s)[k]?.map (·.getLsbD i) = s[8 * k + i]?.map (symBit p) := by
  have hlt : 8 * k + i < s.length := by omega
  rw [getElem?_decodeSyms p s k hk, Option.map_some, getLsbD_decByte p _ i hi, List.getElem?_take_of_lt hi,
    List.getElem?_drop, List.getElem?_eq_getElem hlt]
  rfl

/-- A byte is read back from its eight symbols (R95). -/
theorem decByte_encByte {p : Params} (hp : p.Lawful) (x : Byte) : decByte p (encByte p x) = x := by
  refine BitVec.eq_of_getLsbD_eq fun i hi => ?_
  rw [getLsbD_decByte p _ i hi, getElem?_encByte p x hi]
  exact symBit_bitSym hp _

theorem decodeSyms_encodeBytes {p : Params} (hp : p.Lawful) (l : List Byte) : decodeSyms p (encodeBytes p l) = l := by
  induction l with
  | nil => rfl
  | cons x l ih =>
    rw [encodeBytes_cons, decodeSyms_group p _ _ (length_encByte p x), decByte_encByte hp, ih]

theorem decByte_map_mask (p : Params) (g : List Byte) : decByte p (g.map (· &&& 0x7F)) = decByte p g := by
  rw [decByte, List.map_map]
  exact congrArg byteOfBits (List.map_congr_left fun v _ => symBit_mask p v)

/-- The decoder masks its symbols, so that the mask of the wire changes nothing (R57, R94). -/
theorem decodeSyms_map_mask (p : Params) (s : List Byte) : decodeSyms p (s.map (· &&& 0x7F)) = decodeSyms p s := by
  refine List.ext_getElem? fun k => ?_
  by_cases hk : k < s.length / 8
  · rw [getElem?_decodeSyms p s k hk, getElem?_decodeSyms p _ k (by simpa using hk), ← List.map_drop, ← List.map_take,
      decByte_map_mask]
  · rw [List.getElem?_eq_none (by simpa using hk), List.getElem?_eq_none (by simpa using hk)]

/-! ### `ENC` and `DEC` -/

theorem Accepted.exec_dec {a cap : Nat} {s : State} (h : Accepted (.dec a cap) s) :
    exec (.dec a cap) s = .next ((s.bufWrite a ((decodeSyms s.cfg s.symRead).take cap)).setRes
      ((decodeSyms s.cfg s.symRead).take cap).length) := by
  obtain ⟨hb, hr, -⟩ := h
  exact offer_accepted _ hb ((bufRange_iff a cap).2 (Nat.le_of_not_lt hr)) (by simp) (by simp)

/-- Acceptance outside the CRC unit does not depend on `SYM` and `SYMLEN` (R131). -/
theorem Accepted.symLoad {i : Instr} {s : State} (h : Accepted i s) (l : List Byte) : Accepted i (s.symLoad l) := h

@[simp] theorem State.symRead_setRes (v : Nat) (s : State) : (s.setRes v).symRead = s.symRead := rfl

/-- `SYM` reads as what has been loaded into it (R28, R96). -/
theorem State.symRead_symLoad (l : List Byte) (s : State) : (s.symLoad l).symRead = l :=
  map_symCell_range (symCell_symLoad_of_lt l s)

/-! ### Transmission in parts -/

/-- `SENDBYTES` behind other symbols hands over its own behind them (R86, R98). -/
theorem Accepted.exec_sendBytes_onLink {a n : Nat} {s : State} (h : Accepted (.sendBytes a n) s) (syms : List Byte) :
    exec (.sendBytes a n) (s.onLink (Link.sendSyms s.cfg syms)) =
      .next (s.onLink (Link.sendSyms s.cfg (syms ++ encodeBytes s.cfg (s.bufRead a n)))) := by
  rw [(h.onLink (Link.follows_sendSyms s.cfg syms s.link)).exec_sendBytes]
  simp only [State.onLink, Link.sendSyms_append]
  rfl

/-- What is accepted of a range is accepted of each part of it (R47). -/
theorem Accepted.sendBytes_part {a n b m : Nat} {s : State} (h : Accepted (.sendBytes a n) s) (hm : b + m ≤ a + n) :
    Accepted (.sendBytes b m) s := by
  have ready := h.cfgEn (by simp [touchesWire])
  obtain ⟨idle, range, -⟩ := h
  exact ⟨idle, fun out => range (Nat.lt_of_lt_of_le out hm), fun _ => ready, by simp⟩

/-! ### What does not return -/

/-- On an idle path, with no event left before the host's next input and an environment that never falls silent, the
loop of `COLLECT` does not end (R108, log 3). -/
theorem Link.readLoop_babbles (p : Params) {l : Link} (n : Nat) (acc : List Sym7) (hs : l.sending = false)
    (hr : l.canRead = false) (hb : 0 < p.rxWaitTicks) (hq : l.envSilent = false) (hi : hostNext l.inputs = true) :
    l.readLoop p n acc = none := by
  cases n with
  | zero => rfl
  | succ n => rw [readLoop_succ, readWait_dry p hs hr hb hi, if_pos (by simp [Link.babbles, hq])]

/-- Against an environment that never falls silent a response has no end, whatever burst comes first (R108). -/
theorem Link.response_babbles (p : Params) {l : Link} (r : List Byte) {rest : List Input}
    (he : l.cfgEn = true) (hc : l.rxClean = true) (hs : l.sending = false) (hr : l.canRead = false)
    (hb : 0 < p.rxWaitTicks) (hq : l.envSilent = false) (hi : l.inputs = r.map (fun v => .env (.rx v)) ++ rest)
    (hend : hostNext rest = true) : l.response p = none := by
  have hfuel : l.inputs.length + 3 = rest.length + 3 + r.length := by rw [hi]; simp; omega
  obtain ⟨rdr, hburst⟩ := readLoop_burst p r rest (rest.length + 3) [] he hs hr hb hi
  rw [response_clean p hc, hfuel, hburst]
  exact readLoop_babbles p _ _ hs hr hb hq hend

/-- An accepted `COLLECT` whose response has no end does not return (R108, log 3). -/
theorem Accepted.exec_collect_endless {a cap : Nat} {s : State} (h : Accepted (.collect a cap) s)
    (hres : (s.link.askForResponse s.cfg).response s.cfg = none) :
    exec (.collect a cap) s = .fault .collectNeverEnds := by
  have hw := h.cfgEn (by simp [touchesWire])
  obtain ⟨hb, hr, -⟩ := h
  refine (offer_accepted _ hb ((bufRange_and_symRange_iff a cap).2 hr) (fun _ => hw) (by simp)).trans ?_
  rw [hres]

/-- An instruction that does not return is a `COLLECT` whose response has no end; where the environment falls silent
every response has one (R108, R126, R135). -/
theorem exec_fault {i : Instr} {s : State} {f : Fault} (h : exec i s = .fault f) :
    s.link.envSilent = false ∧ ∃ a cap, i = .collect a cap := by
  cases i with
  | collect a cap =>
    refine ⟨Bool.eq_false_iff.2 fun silent => ?_, a, cap, rfl⟩
    obtain ⟨r, hr⟩ := Link.response_returns s.cfg s.link silent
    have hrun := offer_eq_fault h
    rw [hr] at hrun
    cases hrun
  | symBit0 | symBit1 | flagByteCmd | flagByteTx | flagByteIdle | flagByteSleep => cases h
  | _ => cases offer_eq_fault h

/-- A word that is taken in returns where the environment falls silent (R126). -/
theorem stepWord_ne_fault {s : State} (c : CodeWord) (f : Fault) (hq : s.link.envSilent = true) :
    stepWord c s ≠ .fault f := by
  intro h
  unfold stepWord at h
  split at h
  · obtain ⟨loud, -⟩ := exec_fault h
    exact absurd (hq.symm.trans loud) (by decide)
  · split at h <;> cases h

/-- Where the environment falls silent no step faults (R126). -/
theorem step_ne_fault {s : State} (f : Fault) (hq : s.link.envSilent = true) : step s ≠ .fault f := by
  intro h
  unfold step at h
  split at h
  case h_2 c rest _ => exact stepWord_ne_fault (s := s.withInputs rest) c f hq h
  case h_5 | h_6 => cases offer_eq_fault h
  all_goals cases h

end Sys2Proof.Machine

namespace Sys2Proof.Proofs

open Sys2Proof.Machine

/-! ### What does not return -/

/-- Settles O18. -/
theorem onlyEndlessCollectDoesNotReturn : Obligations.OnlyEndlessCollectDoesNotReturn :=
  ⟨fun _ _ _ h => exec_fault h, fun _ f hq => step_ne_fault f hq⟩

/-- Settles O51: the path that its `FLUSH` leaves is clean and idle, and behind the burst the response has no end. -/
theorem collectNeverEndsIfNeverSilent : Obligations.CollectNeverEndsIfNeverSilent := by
  intro s a cap r rest hs ha hh hq hi hend
  obtain ⟨-, -, -, -, -, budget, -⟩ := hs.lawful
  obtain ⟨-, clean, amid, ready, idle, empty, -, silent, -⟩ :=
    Link.askForResponse_healthy hs.link (ha.cfgEn (by simp [touchesWire])) hh
  have agenda := (amid.eq (hi ▸ arrivals_ne_amid r (.inl ⟨hend, rfl⟩))).trans hi
  exact ha.exec_collect_endless
    (Link.response_babbles s.cfg r ready clean idle empty budget (silent.trans hq) agenda hend)

/-! ### The codec -/

/-- Settles O38. -/
theorem encodeSymbols : Obligations.EncodeSymbols :=
  ⟨fun p x => ⟨length_encByte p x, fun _ hi => getElem?_encByte p x hi⟩, by decide,
    fun p => ⟨rfl, encodeBytes_cons p, length_encodeBytes p⟩⟩

/-- Settles O39: the mask that the statement writes out is part of reading a symbol. -/
theorem decodeGroupsOfEight : Obligations.DecodeGroupsOfEight := by
  refine ⟨fun p s => ⟨length_decodeSyms p s, fun k hk i hi => ?_⟩, by decide, by decide, fun p s h => ?_,
    fun p s h => decodeSyms_short p s (by omega)⟩
  · rw [getLsbD_decodeSyms p s hk hi]
    simp only [setWidth_seven_mask]
    rfl
  · rw [length_decodeSyms, h]

/-- Settles O40: one symbol decodes to no byte, so that encoding does not give it back. -/
theorem codecRoundTrip : Obligations.CodecRoundTrip := by
  refine fun p hp => ⟨fun l => ⟨decodeSyms_encodeBytes hp l, ?_⟩, [0], ?_⟩
  · rw [decodeSyms_map_mask, decodeSyms_encodeBytes hp]
  · rw [decodeSyms_short p [0] (by simp)]
    exact (List.cons_ne_nil _ _).symm

/-! ### `ENC` and `DEC` -/

/-- Settles O42. -/
theorem decStoresDecodedBytes : Obligations.DecStoresDecodedBytes := by
  intro s a cap ha m
  have hlen : ((decodeSyms s.cfg s.symRead).take cap).length = m := by simp [m, Nat.min_comm]
  refine ⟨_, ha.exec_dec, by rw [hlen]; rfl, fun k hk i hi => ?_, fun x hx => ?_⟩
  · obtain ⟨hsym, hcap⟩ := Nat.lt_min.1 hk
    have hbyte := State.bufByte_bufWrite_add a ((decodeSyms s.cfg s.symRead).take cap) s k (by omega)
    have hbit := getLsbD_decodeSyms s.cfg s.symRead (k := k) (i := i) (by simpa using hsym) hi
    rw [← List.getElem?_take_of_lt hcap, ← hbyte, State.getElem?_symRead s _ (by omega)] at hbit
    rw [setWidth_seven_mask]
    exact Option.some.inj hbit
  · exact State.bufByte_bufWrite_of_outside a _ s x (by omega)

/-- Settles O43: `DEC` reads the symbols that `ENC` has loaded, and these decode to the bytes they were made from. -/
theorem encThenDecCopies : Obligations.EncThenDecCopies := by
  intro s a n b cap hp henc hdec hn
  have bytes : (decodeSyms s.cfg (encodeBytes s.cfg (s.bufRead a n))).take cap = s.bufRead a n := by
    rw [decodeSyms_encodeBytes hp, List.take_of_length_le (by simpa using hn)]
  have copied := ((hdec.symLoad (encodeBytes s.cfg (s.bufRead a n))).setRes (8 * n)).exec_dec
  rw [State.symRead_setRes, State.symRead_symLoad, State.cfg_setRes, State.cfg_symLoad, bytes] at copied
  rw [henc.exec_enc]
  refine ⟨_, copied, by simp, fun k hk => ?_, fun x hx => ?_⟩
  · have hbyte := State.bufByte_bufWrite_add b (s.bufRead a n) s k (by simpa using hk)
    rw [List.getElem?_eq_getElem (by simpa using hk), State.getElem_bufRead] at hbyte
    exact Option.some.inj hbyte
  · exact State.bufByte_bufWrite_of_outside b (s.bufRead a n) s x (by simpa using hx)

/-! ### Transmission in parts -/

/-- Settles O46: the symbols of the whole range are those of its first part and then those of the rest. -/
theorem sendBytesSplits : Obligations.SendBytesSplits := by
  intro s a m n ha
  have first : Accepted (.sendBytes a m) s := ha.sendBytes_part (by omega)
  have rest : Accepted (.sendBytes (a + m) n) s := ha.sendBytes_part (by omega)
  rw [ha.exec_sendBytes, first.exec_sendBytes, State.bufRead_add, encodeBytes_append]
  exact (rest.exec_sendBytes_onLink _).symm

/-- Settles O48: the encoded flag is the symbols of the byte that stands first. -/
theorem flagCommandIsFirstByte : Obligations.FlagCommandIsFirstByte := by
  intro s a n henc hbyte ha
  have flag : Accepted .flagCmd s := by
    have ready := ha.cfgEn (by simp [touchesWire])
    obtain ⟨idle, -⟩ := ha
    exact ⟨idle, id, fun _ => ready, by simp⟩
  have rest : Accepted (.sendBytes (a + 1) n) s := ha.sendBytes_part (by omega)
  rw [ha.exec_sendBytes, flag.exec_flag (f := s.cfg.flagCmd) (by simp), flagSyms_encoded henc, State.bufRead_succ,
    hbyte, encodeBytes_cons]
  exact rest.exec_sendBytes_onLink _

end Sys2Proof.Proofs

/-! The CRC: the bit step as a linear map of register and data bit, the byte step with bit 7 first as a loop over the
register alone, and what `CRC.SEED` and `CRC.GET` come to once they are accepted. -/

namespace Sys2Proof.Machine

/-! ### The bit step -/

/-- Bit 15 is the most significant one (R111). -/
theorem crcBit_eq_ite (c : Half) (d : Bool) :
    crcBit c d = if d ≠ c.getLsbD 15 then c <<< 1 ^^^ 0x8005 else c <<< 1 := by
  simp [crcBit, BitVec.msb_eq_getLsbD_last, Config.crcPoly]

/-- The bit step as a shift and a correction, which is there when the data bit differs from bit 15 (R111). -/
theorem crcBit_eq_xor (c : Half) (d : Bool) : crcBit c d = c <<< 1 ^^^ if d ^^ c.msb then Config.crcPoly else 0 := by
  rw [crcBit, Bool.bne_eq_xor, apply_ite (c <<< 1 ^^^ ·), BitVec.ofNat_eq_ofNat, BitVec.xor_zero]

/-- The bit step is linear over exclusive-or (R120 (c)). -/
theorem crcBit_xor (c₁ c₂ : Half) (d₁ d₂ : Bool) :
    crcBit (c₁ ^^^ c₂) (d₁ ^^ d₂) = crcBit c₁ d₁ ^^^ crcBit c₂ d₂ := by
  have correction (e₁ e₂ : Bool) : (if e₁ ^^ e₂ then Config.crcPoly else 0) =
      (if e₁ then Config.crcPoly else 0) ^^^ if e₂ then Config.crcPoly else 0 := by
    cases e₁ <;> cases e₂ <;> rfl
  have differs : (d₁ ^^ d₂ ^^ (c₁ ^^^ c₂).msb) = ((d₁ ^^ c₁.msb) ^^ (d₂ ^^ c₂.msb)) := by
    simp only [BitVec.msb_xor, Bool.xor_assoc, Bool.xor_left_comm]
  simp only [crcBit_eq_xor, differs, correction, BitVec.shiftLeft_xor_distrib]
  ac_rfl

/-- A data bit equal to bit 15 only shifts the register (R111). -/
theorem crcBit_msb (c : Half) : crcBit c c.msb = c <<< 1 := by simp [crcBit]

/-- With data bit 0 the bit step is the loop body of the textbook (R115). -/
theorem crcBit_false (c : Half) : crcBit c false = if c.getLsbD 15 then c <<< 1 ^^^ 0x8005 else c <<< 1 := by
  simp [crcBit_eq_ite]

/-! ### Bytes and lists of bytes -/

/-- The byte step is linear over exclusive-or, in either bit order (R120 (c)). -/
theorem crcByte_xor (o : CrcBitOrder) (c₁ c₂ : Half) (x₁ x₂ : Byte) :
    crcByte o (c₁ ^^^ c₂) (x₁ ^^^ x₂) = crcByte o c₁ x₁ ^^^ crcByte o c₂ x₂ := by
  simp only [crcByte, BitVec.getLsbD_xor]
  induction crcBitOrderList o generalizing c₁ c₂ with
  | nil => rfl
  | cons i is ih => rw [List.foldl_cons, crcBit_xor, ih, List.foldl_cons, List.foldl_cons]

@[simp] theorem crcByte_zero (o : CrcBitOrder) : crcByte o 0 0 = 0 := by cases o <;> decide

@[simp] theorem crcBytes_nil (o : CrcBitOrder) (c : Half) : crcBytes o c [] = c := rfl

@[simp] theorem crcBytes_cons (o : CrcBitOrder) (c : Half) (x : Byte) (l : List Byte) :
    crcBytes o c (x :: l) = crcBytes o (crcByte o c x) l := rfl

/-- The CRC of two lists in a row goes on from that of the first (R119). -/
theorem crcBytes_append (o : CrcBitOrder) (c : Half) (l₁ l₂ : List Byte) :
    crcBytes o c (l₁ ++ l₂) = crcBytes o (crcBytes o c l₁) l₂ := List.foldl_append

/-- Zero bytes leave a zero register at zero (R120 (b)). -/
theorem crcBytes_replicate_zero (o : CrcBitOrder) (n : Nat) : crcBytes o 0 (List.replicate n 0) = 0 := by
  induction n with
  | zero => rfl
  | succ n ih => rw [List.replicate_succ, crcBytes_cons, crcByte_zero, ih]

/-- The CRC is linear over exclusive-or of lists of equal length (R120 (c)). -/
theorem crcBytes_xor (o : CrcBitOrder) (c₁ c₂ : Half) {l₁ l₂ : List Byte} (h : l₁.length = l₂.length) :
    crcBytes o (c₁ ^^^ c₂) (List.zipWith (· ^^^ ·) l₁ l₂) = crcBytes o c₁ l₁ ^^^ crcBytes o c₂ l₂ := by
  induction l₁ generalizing l₂ c₁ c₂ with
  | nil =>
    rw [List.length_nil, eq_comm, List.length_eq_zero_iff] at h
    rw [h]
    rfl
  | cons x l₁ ih =>
    obtain ⟨y, l₂, rfl⟩ := List.exists_cons_of_length_eq_add_one h.symm
    rw [List.zipWith_cons_cons, crcBytes_cons, crcByte_xor, ih _ _ (by simpa using h)]
    rfl

/-! ### The byte step with bit 7 first -/

/-- A word in the register does the work of data bits: `n` zero bits fed to `c ^^^ y` do what the first `n` bits of `y`,
bit 15 first, do to `c`, but for the rest of `y`, which is still in the register. -/
theorem foldl_crcBit_xor (c y : Half) {n : Nat} (hn : n ≤ 16) :
    (List.range n).foldl (fun r _ => crcBit r false) (c ^^^ y) =
      (List.range n).foldl (fun r k => crcBit r (y.getLsbD (15 - k))) c ^^^ y <<< n := by
  induction n with
  | zero => simp
  | succ n ih =>
    have next : (y <<< n).msb = y.getLsbD (15 - n) := by
      rw [BitVec.msb_eq_getLsbD_last, BitVec.getLsbD_shiftLeft]
      simp [show n ≤ 15 by omega]
    simp only [List.range_succ, List.foldl_append, List.foldl_cons, List.foldl_nil, ih (by omega)]
    generalize (List.range n).foldl (fun r k => crcBit r (y.getLsbD (15 - k))) c = r
    calc crcBit (r ^^^ y <<< n) false
        = crcBit (r ^^^ y <<< n) ((y <<< n).msb ^^ (y <<< n).msb) := by rw [Bool.xor_self]
      _ = crcBit r (y <<< n).msb ^^^ y <<< n <<< 1 := by rw [crcBit_xor, crcBit_msb]
      _ = crcBit r (y.getLsbD (15 - n)) ^^^ y <<< (n + 1) := by rw [next, BitVec.shiftLeft_add]

/-- The byte step with bit 7 first, by a byte that stands in the high half of a word `y` (R113). -/
theorem foldl_crcBit_xor_eq_crcByte (c y : Half) :
    (List.range 8).foldl (fun r _ => crcBit r false) (c ^^^ y) =
      crcByte .msbFirst c (y.extractLsb' 8 8) ^^^ y <<< 8 := by
  rw [foldl_crcBit_xor c y (by decide)]
  simp [crcByte, crcBitOrderList, List.range_succ, BitVec.getLsbD_extractLsb']

/-- The byte step with bit 7 first is eight zero bits, once the byte is in the high half of the register (R115). -/
theorem crcByte_msbFirst (c : Half) (x : Byte) :
    crcByte .msbFirst c x = (List.range 8).foldl (fun r _ => crcBit r false) (c ^^^ x.setWidth 16 <<< 8) := by
  have high : (x.setWidth 16 <<< 8).extractLsb' 8 8 = x := by
    ext i hi
    simp [hi, show 8 + i < 16 by omega]
  have rest : x.setWidth 16 <<< 8 <<< 8 = 0#16 := by
    rw [← BitVec.shiftLeft_add, BitVec.shiftLeft_eq_zero (by decide)]
  rw [foldl_crcBit_xor_eq_crcByte, high, rest, BitVec.xor_zero]

/-- Its own high byte, bit 7 first, only shifts the register (R120 (d)). -/
theorem crcByte_high (c : Half) : crcByte .msbFirst c (c.extractLsb' 8 8) = c <<< 8 := by
  have zeros : (List.range 8).foldl (fun r _ => crcBit r false) (0 : Half) = 0 := by decide
  have h := foldl_crcBit_xor_eq_crcByte c c
  rw [BitVec.xor_self, show 0#16 = 0 from rfl, zeros] at h
  exact BitVec.xor_eq_zero_iff.1 h.symm

/-- The register's own two bytes, high byte first and bit 7 first, clear it (R120 (d)). -/
theorem crcBytes_residue (c : Half) : crcBytes .msbFirst c [c.extractLsb' 8 8, c.extractLsb' 0 8] = 0 := by
  have low : c.extractLsb' 0 8 = (c <<< 8).extractLsb' 8 8 := by
    ext i hi
    simp [show 8 + i < 16 by omega, BitVec.getLsbD_eq_getElem (show i < 16 by omega)]
  rw [crcBytes_cons, crcByte_high, crcBytes_cons, low, crcByte_high, crcBytes_nil, ← BitVec.shiftLeft_add]
  exact BitVec.shiftLeft_eq_zero (by decide)

/-! ### The operations -/

theorem Accepted.exec_crcSeed {a : Nat} {s : State} (h : Accepted (.crcSeed a) s) :
    exec (.crcSeed a) s = .next (s.withCrc (s.bufHalf a) true) := by
  obtain ⟨hb, hr, -⟩ := h
  exact offer_accepted _ hb ((bufRange_iff a 2).2 (Nat.le_of_not_lt hr)) (by simp) (by simp)

theorem Accepted.exec_crcGet {a : Nat} {s : State} (h : Accepted (.crcGet a) s) :
    exec (.crcGet a) s = .next (s.bufWrite a (halfBytes s.crc)) := by
  obtain ⟨hb, hr, -, hv⟩ := h
  exact offer_accepted _ hb ((bufRange_iff a 2).2 (Nat.le_of_not_lt hr)) (by simp) (fun _ => hv (by simp))

/-- What is accepted of a range is accepted of each part of it (R47). -/
theorem Accepted.crcUpd_part {a n b m : Nat} {s : State} (h : Accepted (.crcUpd a n) s) (hm : b + m ≤ a + n) :
    Accepted (.crcUpd b m) s := by
  obtain ⟨idle, range, -, seeded⟩ := h
  exact ⟨idle, fun out => range (Nat.lt_of_lt_of_le out hm), by simp [touchesWire], fun _ => seeded (by simp)⟩

/-- `CRC.UPD` goes on from whatever the register holds (R117, R131). -/
theorem Accepted.exec_crcUpd_withCrc {a n : Nat} {s : State} (h : Accepted (.crcUpd a n) s) (c : Half) :
    exec (.crcUpd a n) (s.withCrc c s.crcValid) =
      .next (s.withCrc (crcBytes s.cfg.crcBitOrder c (s.bufRead a n)) s.crcValid) :=
  Accepted.exec_crcUpd (s := s.withCrc c s.crcValid) h

/-- `CRC.SEED` needs nothing of the CRC unit (R116, R131). -/
theorem Accepted.crcSeed_withCrc {a : Nat} {s : State} (h : Accepted (.crcSeed a) s) (c : Half) (v : Bool) :
    Accepted (.crcSeed a) (s.withCrc c v) := by
  obtain ⟨idle, range, wire, -⟩ := h
  exact ⟨idle, range, wire, by simp⟩

/-- Where `CRC.GET a` has stored, `CRC.SEED a` can load (R116, R118). -/
theorem Accepted.crcSeed_bufWrite_of_crcGet {a : Nat} {s : State} (h : Accepted (.crcGet a) s) (l : List Byte) :
    Accepted (.crcSeed a) (s.bufWrite a l) := by
  obtain ⟨idle, range, -⟩ := h
  exact ⟨idle, range, by simp [touchesWire], by simp⟩

/-- The byte at `a` after `v` has been stored there is the low one (R40). -/
theorem State.bufByte_bufWrite_halfBytes_low (a : Nat) (v : Half) (s : State) :
    (s.bufWrite a (halfBytes v)).bufByte a = v.extractLsb' 0 8 :=
  Option.some.inj (bufByte_bufWrite_add a (halfBytes v) s 0 Nat.two_pos)

/-- The byte behind it is the high one (R40). -/
theorem State.bufByte_bufWrite_halfBytes_high (a : Nat) (v : Half) (s : State) :
    (s.bufWrite a (halfBytes v)).bufByte (a + 1) = v.extractLsb' 8 8 :=
  Option.some.inj (bufByte_bufWrite_add a (halfBytes v) s 1 Nat.one_lt_two)

/-- A two-byte value is read back as it was stored (R40). -/
theorem State.bufHalf_bufWrite_halfBytes (a : Nat) (v : Half) (s : State) :
    (s.bufWrite a (halfBytes v)).bufHalf a = v := by
  unfold State.bufHalf
  rw [bufByte_bufWrite_halfBytes_low, bufByte_bufWrite_halfBytes_high]
  exact (BitVec.extractLsb'_append_extractLsb'_eq_extractLsb' rfl).trans (BitVec.extractLsb'_eq_self)

end Sys2Proof.Machine

namespace Sys2Proof.Proofs

open Sys2Proof.Machine

/-! ### The CRC as a function -/

/-- Settles O52: the values are computed. -/
theorem crcStepFunctions : Obligations.CrcStepFunctions :=
  ⟨crcBit_eq_ite, by decide, fun _ _ => ⟨rfl, rfl⟩, by decide⟩

/-- Settles O53: the loop body is the bit step with data bit 0. -/
theorem crcTextbookLoop : Obligations.CrcTextbookLoop := by
  refine ⟨fun c x => ?_, by decide +kernel⟩
  simp only [← crcBit_false]
  exact crcByte_msbFirst c x

/-- Settles O55. -/
theorem crcAlgebra : Obligations.CrcAlgebra := by
  exact ⟨crcBytes_nil, crcBytes_replicate_zero, crcBit_xor, fun o c₁ c₂ _ _ h => crcBytes_xor o c₁ c₂ h,
    fun seed l => (crcBytes_append _ seed l _).trans (crcBytes_residue _)⟩

/-! ### The CRC as operations -/

/-- Settles O54: the first `CRC.UPD` has written the register alone, and the second goes on from it. -/
theorem crcIncremental : Obligations.CrcIncremental := by
  refine ⟨crcBytes_append, fun s a m n ha => ?_⟩
  have first : Accepted (.crcUpd a m) s := ha.crcUpd_part (by omega)
  have rest : Accepted (.crcUpd (a + m) n) s := ha.crcUpd_part (by omega)
  rw [ha.exec_crcUpd, first.exec_crcUpd, State.bufRead_add, crcBytes_append]
  exact (rest.exec_crcUpd_withCrc (crcBytes s.cfg.crcBitOrder s.crc (s.bufRead a m))).symm

/-- Settles O56: the second seed reads the same bytes, since the first has written the CRC unit alone. -/
theorem crcSeedLoadsSeed : Obligations.CrcSeedLoadsSeed := by
  refine ⟨fun s a ha => ⟨_, ha.exec_crcSeed, rfl, s.toNat_bufHalf a⟩, fun s a b ha hb => ?_, fun s a h => ?_,
    fun a h => congrArg CodeWord.cw32 (Laws.mkCw_bZero 0x20 a h)⟩
  · rw [ha.exec_crcSeed, hb.exec_crcSeed]
    exact (hb.crcSeed_withCrc _ _).exec_crcSeed
  · exact (exec_refused_iff rfl s).2 (not_accepted_iff.2 (.inr (.inl h)))

/-- Settles O58: `CRC.SEED` reads the two bytes back as the register they were made from. -/
theorem crcGetStoresRegister : Obligations.CrcGetStoresRegister := by
  refine ⟨fun s a ha => ⟨⟨_, ha.exec_crcGet, rfl, ?_, ?_, fun x hx => ?_⟩, ?_⟩, fun s a h => ?_,
    fun a h => congrArg CodeWord.cw32 (Laws.mkCw_bZero 0x22 a h)⟩
  · rw [State.bufByte_bufWrite_halfBytes_low, BitVec.extractLsb'_toNat, Nat.shiftRight_zero]
  · rw [State.bufByte_bufWrite_halfBytes_high, BitVec.extractLsb'_toNat, Nat.shiftRight_eq_div_pow]
    omega
  · exact State.bufByte_bufWrite_of_outside a (halfBytes s.crc) s x hx
  · rw [ha.exec_crcGet]
    exact ⟨_, (ha.crcSeed_bufWrite_of_crcGet _).exec_crcSeed, State.bufHalf_bufWrite_halfBytes a s.crc s, rfl⟩
  · refine (exec_refused_iff rfl s).2 (not_accepted_iff.2 ?_)
    rcases h with out | unseeded
    · exact .inr (.inl out)
    · exact .inr (.inr (.inr ⟨.inr ⟨a, rfl⟩, unseeded⟩))

end Sys2Proof.Proofs

/-! Acceptance directly after reset: that an accepted operation returns where the environment falls silent, and the two
reasons to refuse that hold of a block on which neither bus initialisation nor `CRC.SEED` has run. -/

namespace Sys2Proof.Machine

/-- An accepted operation returns: it is not refused (R131), and the one run without an end needs an environment that
never falls silent (R135). -/
theorem Accepted.exec_next {i : Instr} {s : State} (h : Accepted i s) (hi : isHostOp i = true)
    (hq : s.link.envSilent = true) : ∃ t, exec i s = .next t := by
  cases he : exec i s with
  | next t => exact ⟨t, rfl⟩
  | fault f =>
    obtain ⟨babbling, -⟩ := exec_fault he
    exact absurd hq (by simp [babbling])
  | refused r => exact absurd h ((exec_refused_iff hi s).1 ⟨r, he⟩)

theorem isHostOp_of_touchesWire {i : Instr} (h : touchesWire i) : isHostOp i = true := by
  rcases h with ⟨v, rfl⟩ | rfl | rfl | ⟨a, n, rfl⟩ | rfl | rfl | rfl | rfl | ⟨a, cap, rfl⟩ <;> rfl

/-- While the channel is not ready, what touches the wire is refused (R72, R90). -/
theorem exec_refused_of_notReady {i : Instr} {s : State} (hw : touchesWire i) (he : s.link.cfgEn = false) :
    ∃ r, exec i s = .refused r :=
  (exec_refused_iff (isHostOp_of_touchesWire hw) s).2 (not_accepted_iff.2 (.inr (.inr (.inl ⟨hw, he⟩))))

/-- `CRC.UPD` and `CRC.GET` stay off the wire. -/
theorem isHostOp_offWire_of_usesCrc {i : Instr} (h : (∃ a n, i = .crcUpd a n) ∨ ∃ a, i = .crcGet a) :
    isHostOp i = true ∧ ¬ touchesWire i := by
  rcases h with ⟨a, n, rfl⟩ | ⟨a, rfl⟩ <;> simp [isHostOp, touchesWire]

/-- Before any `CRC.SEED`, what uses the register is refused (R117, R118). -/
theorem exec_refused_of_unseeded {i : Instr} {s : State} (hc : (∃ a n, i = .crcUpd a n) ∨ ∃ a, i = .crcGet a)
    (hv : s.crcValid = false) : ∃ r, exec i s = .refused r := by
  obtain ⟨hi, -⟩ := isHostOp_offWire_of_usesCrc hc
  exact (exec_refused_iff hi s).2 (not_accepted_iff.2 (.inr (.inr (.inr ⟨hc, hv⟩))))

/-- `ENC`, `DEC`, `STB`, `LDB` and `CRC.SEED` need neither the channel nor a seed: an idle block accepts them with
operands in range (R131). -/
theorem isHostOp_accepted_of_idle {i : Instr} {s : State}
    (h : (∃ a n, i = .enc a n) ∨ (∃ a cap, i = .dec a cap) ∨ (∃ a v, i = .stb a v) ∨ (∃ a, i = .ldb a) ∨
      ∃ a, i = .crcSeed a) (hb : s.busy = false) (hr : ¬ outOfRange i) : isHostOp i = true ∧ Accepted i s := by
  have free : isHostOp i = true ∧ ¬ touchesWire i ∧ ¬ ((∃ a n, i = .crcUpd a n) ∨ ∃ a, i = .crcGet a) := by
    rcases h with ⟨a, n, rfl⟩ | ⟨a, cap, rfl⟩ | ⟨a, v, rfl⟩ | ⟨a, rfl⟩ | ⟨a, rfl⟩ <;> simp [isHostOp, touchesWire]
  obtain ⟨hi, offWire, noCrc⟩ := free
  exact ⟨hi, hb, hr, fun hw => absurd hw offWire, fun hc => absurd hc noCrc⟩

end Sys2Proof.Machine

namespace Sys2Proof.Proofs

open Sys2Proof.Machine

/-! ### Directly after reset -/

/-- Settles O17: of the reasons of R131, the channel that is not ready and the missing seed are the two that hold after a
power-on, and a `CRC.SEED` that completes has removed the second. -/
theorem acceptanceAfterReset : Obligations.AcceptanceAfterReset := by
  intro p boot
  refine ⟨rfl, fun i hw => exec_refused_of_notReady hw rfl, fun i hi hr => ?_, fun i hc =>
    ⟨exec_refused_of_unseeded hc rfl, fun a t ht hr => ?_⟩⟩
  · obtain ⟨host, accepted⟩ := isHostOp_accepted_of_idle (s := State.atPowerOn p boot) hi rfl hr
    exact accepted.exec_next host rfl
  · obtain ⟨⟨⟩, -⟩ := offer_eq_next ht
    obtain ⟨host, offWire⟩ := isHostOp_offWire_of_usesCrc hc
    exact Accepted.exec_next ⟨rfl, hr, fun hw => absurd hw offWire, fun _ => rfl⟩ host rfl

end Sys2Proof.Proofs
